-- ==== Sys2Proof/Word.lean ====
section
/-! DEFINITION. The fixed widths of the block (00_scope.md R7, R8) as types. Every quantity is unsigned (R9). -/

namespace Sys2Proof

/-- A command word, CMD_W = 64 bits (R8, R55). -/
abbrev Word := BitVec 64

/-- An operand field A, B or C of a command word: CHAN_W = DIM_W = 16 bits (R8, R55, R60). -/
abbrev Operand := BitVec 16

/-- A channel value that passed the range check: 8 bits (R73). -/
abbrev Channel := BitVec 8

/-- A sample or field of the stream: SAMPLE_W = 10 bits (R7, R73). -/
abbrev Sample := BitVec 10

/-- An output byte: BYTE_W = 8 bits (R7). -/
abbrev Byte := BitVec 8

end Sys2Proof
end

