-- ==== Sys2Proof/Syntax.lean ====
section
/-! DEFINITION. The command set `RGB10PK-v1` (R2, R56): one constructor per row of spec/opcode_table.json, and the
assembler's lines (R65, R66), which are another way to write sequences of commands. -/

namespace Sys2Proof

/-- A command (30_encoding.md R56 to R59). Every value of every operand field is a command (R58, R60). -/
inductive Instr where
  /-- START: open a frame of `w` x `h` pixels (R57, R93). -/
  | start (w h : Operand)
  /-- PIXEL: pack one pixel with channels R, G, B (R58, R101). -/
  | pixel (r g b : Operand)
  /-- END: pad, flush and close the frame (R59, R106). -/
  | endFrame
  deriving DecidableEq, Repr

/-- One pixel as the host presents it: three operands of 16 bits, of which 0 to 255 are legal (R100, R108). -/
structure Pixel where
  r : Operand
  g : Operand
  b : Operand
  deriving DecidableEq, Repr

/-- A line of assembly (R65) or the pseudo-instruction PACK (R66), with the numbers as they were written down. -/
inductive AsmLine where
  | start (w h : Nat)
  | pixel (r g b : Nat)
  | endFrame
  /-- `PACK w, h, grid`: the grid's pixels in row-major order. -/
  | pack (w h : Nat) (grid : List (Nat × Nat × Nat))
  deriving DecidableEq, Repr

end Sys2Proof
end

