-- ==== Sys2Proof/WellFormed.lean ====
section
/-! DEFINITION. What a command and an assembly line must satisfy to be encodable. -/

namespace Sys2Proof

/-- A command is always well formed: its operands are 16-bit fields and every value is encodable (R58, R60). -/
def Instr.wellFormed : Instr → Bool
  | .start _ _ => true
  | .pixel _ _ _ => true
  | .endFrame => true

/-- An operand written as a number fits its 16-bit field (R65). -/
def fitsOperand (n : Nat) : Bool := decide (n < 65536)

/-- The three numbers of one pixel of a PACK grid fit their fields. -/
def fitsPixel (p : Nat × Nat × Nat) : Bool := fitsOperand p.1 && fitsOperand p.2.1 && fitsOperand p.2.2

/-- What an assembler must accept (R65, R66): every operand fits in 16 bits, PIXEL operands above 255 included, and a
PACK has `w * h` pixels. -/
def AsmLine.wellFormed : AsmLine → Bool
  | .start w h => fitsOperand w && fitsOperand h
  | .pixel r g b => fitsPixel (r, g, b)
  | .endFrame => true
  | .pack w h grid => fitsOperand w && fitsOperand h && decide (grid.length = w * h) && grid.all fitsPixel

end Sys2Proof
end

