-- ==== Sys2Proof/Decode.lean ====
section
/-! DEFINITION. The command word's fields (R55), decoding (R61, R62) and encoding (R57 to R59). -/

namespace Sys2Proof

/-- opcode = word[63:56] (R55). -/
def opcodeField (w : Word) : BitVec 8 := w.extractLsb' 56 8

/-- zero = word[55:48] (R55). -/
def zeroField (w : Word) : BitVec 8 := w.extractLsb' 48 8

/-- A = word[47:32] (R55, R60). -/
def fieldA (w : Word) : Operand := w.extractLsb' 32 16

/-- B = word[31:16] (R55, R60). -/
def fieldB (w : Word) : Operand := w.extractLsb' 16 16

/-- C = word[15:0] (R55, R60). -/
def fieldC (w : Word) : Operand := w.extractLsb' 0 16

/-- Why a word is ILLEGAL (the cases of R62). The block does not record which (R119). -/
inductive Reject where
  /-- opcode 0x00 or 0x04 to 0xFF. -/
  | reservedOpcode
  /-- bits 55:48 are not zero. -/
  | zeroFieldNotZero
  /-- START with C not zero. -/
  | startOperandC
  /-- END with A, B or C not zero. -/
  | endOperand
  deriving DecidableEq, Repr

/-- `decode` of R61, with the reason of an ILLEGAL word by name. It reads no state. -/
def decode (w : Word) : Except Reject Instr :=
  if opcodeField w ≠ 0x01#8 ∧ opcodeField w ≠ 0x02#8 ∧ opcodeField w ≠ 0x03#8 then .error .reservedOpcode
  else if zeroField w ≠ 0#8 then .error .zeroFieldNotZero
  else if opcodeField w = 0x01#8 then
    if fieldC w = 0#16 then .ok (.start (fieldA w) (fieldB w)) else .error .startOperandC
  else if opcodeField w = 0x02#8 then .ok (.pixel (fieldA w) (fieldB w) (fieldC w))
  else if fieldA w = 0#16 ∧ fieldB w = 0#16 ∧ fieldC w = 0#16 then .ok .endFrame
  else .error .endOperand

/-- The word with the given fields, format C (R55). -/
def formatC (opcode : BitVec 8) (a b c : Operand) : Word := opcode ++ (0#8 ++ (a ++ (b ++ c)))

/-- `encode` (R57, R58, R59). -/
def encode : Instr → Word
  | .start w h => formatC 0x01#8 w h 0#16
  | .pixel r g b => formatC 0x02#8 r g b
  | .endFrame => formatC 0x03#8 0#16 0#16 0#16

/-- The instruction an opcode-table word stands for: the table numbers a command's 64 bits as R55 does, so the number
is the command word. A row of more than 64 bits is no command of this block (R64). DESIGN CHOICE, log 11. -/
def decodeTableWord (nbits w : Nat) : Option Instr :=
  if nbits ≤ 64 then
    match decode (BitVec.ofNat 64 (w % 2 ^ nbits)) with
    | .ok i => some i
    | .error _ => none
  else none

end Sys2Proof
end

