-- ==== Sys2Proof/Machine/State.lean ====
section
/-! DEFINITION. The machine's state (10_state.md): the block's ten registers (R13) and, as the environment's state, the
output trace (R29) and the host's moves still to come (R136). All plain data. -/

namespace Sys2Proof.Machine

/-- ST, the state of the block (R14). The value 2 is never held and is left out of the type, as R14 allows
(DESIGN CHOICE, log 5). -/
inductive BlockState where
  /-- No frame open. Code 0. -/
  | idle
  /-- A frame is open. Code 1. -/
  | pack
  /-- A fault has been taken. Code 3. -/
  | err
  deriving DecidableEq, Repr

/-- ERRCODE, the code of the first fault since reset (R15, R113). 6 and 7 are never held and are left out of the type
(DESIGN CHOICE, log 5). -/
inductive ErrCode where
  /-- NONE, 0: no fault since reset. -/
  | none
  /-- INVALID_CHANNEL_VALUE, 1 (R114). -/
  | invalidChannelValue
  /-- ILLEGAL_COMMAND, 2 (R115). -/
  | illegalCommand
  /-- SEQUENCE_ERROR, 3 (R116). -/
  | sequenceError
  /-- FRAME_OVERRUN, 4 (R117). -/
  | frameOverrun
  /-- FRAME_UNDERRUN, 5 (R118). -/
  | frameUnderrun
  deriving DecidableEq, Repr

/-- An item of the output trace (R28, R29). -/
inductive OutItem where
  /-- A byte emitted to OUT. -/
  | byte (b : Byte)
  /-- A DONE event. It carries no data. -/
  | done
  deriving DecidableEq, Repr

/-- A move of the host: there are these two and no other (R136). -/
inductive HostMove where
  /-- Push a command word (R39). -/
  | word (w : Word)
  /-- Assert and release reset between two commands (R133; DEDUCED, log 4). -/
  | reset
  deriving DecidableEq, Repr

structure State where
  /-- ST, 2 bits (R14). -/
  st : BlockState
  /-- ERRCODE, 3 bits (R15). -/
  errcode : ErrCode
  /-- WIDTH (R16). -/
  width : BitVec 16
  /-- HEIGHT (R17). -/
  height : BitVec 16
  /-- X, the column of the next pixel expected (R18). -/
  x : BitVec 16
  /-- Y, the row of the next pixel expected (R19). -/
  y : BitVec 16
  /-- BITPOS, the bit-offset cursor (R21). -/
  bitpos : BitVec 37
  /-- OUTCNT, the bytes emitted since START (R22). -/
  outcnt : BitVec 34
  /-- ACC, the pending bits, left-aligned (R23). -/
  acc : BitVec 8
  /-- NPEND, the number of pending bits (R24). -/
  npend : BitVec 3
  /-- The environment's: the output trace since the last reset, oldest item first (R29). The block never reads it. -/
  trace : List OutItem
  /-- The environment's: the closed traces of the runs before the last reset, oldest run first; what was emitted stays
  with the sink (R134). The block never reads it. DESIGN CHOICE, log 2. -/
  earlier : List (List OutItem)
  /-- The environment's: the host's moves still to come, the next one first (R39, R136). DESIGN CHOICE, log 1. -/
  input : List HostMove
  deriving DecidableEq, Repr

/-- The reasons a step can stop with a fault: there are none. A fault of the spec (R113) is no stop but a next state
in which ST = ERR (R121), and no other behaviour of the spec stops the block (DESIGN CHOICE, log 9). Nothing
raises one; that is safe, because a claim that no step faults is then a fact about the model that the spec states (R123). -/
inductive Fault where
  deriving DecidableEq, Repr

/-- The reasons a step can have no meaning. -/
inductive Refusal where
  /-- Raised by an arm of `exec` whose instruction has no meaning yet; no arm does. Safe: it stops the model where the
  hardware goes on. -/
  | notModelled (mnemonic : String)
  deriving DecidableEq, Repr

/-- The machine right after reset: every register 0, the output trace empty (R34). Nothing was emitted in an earlier
run, and the host has presented nothing yet (logs 2 and 10). -/
def State.reset : State where
  st := .idle
  errcode := .none
  width := 0
  height := 0
  x := 0
  y := 0
  bitpos := 0
  outcnt := 0
  acc := 0
  npend := 0
  trace := []
  earlier := []
  input := []

end Sys2Proof.Machine
end

