-- ==== Sys2Proof/Machine/Flags.lean ====
section
/-! DEFINITION. What is computed from the registers and is no register: FULL (R25), the output lines (R26) and the
status port (R27). There are no condition codes (R26). -/

namespace Sys2Proof.Machine

/-- FULL: every pixel of the frame has been accepted (R25). -/
def full (s : State) : Bool := s.width == 0#16 || s.y == s.height

/-- The 2-bit value of ST (R14, D23). -/
def BlockState.code : BlockState → BitVec 2
  | .idle => 0
  | .pack => 1
  | .err => 3

/-- The 3-bit value of ERRCODE (R113, D23). -/
def ErrCode.code : ErrCode → BitVec 3
  | .none => 0
  | .invalidChannelValue => 1
  | .illegalCommand => 2
  | .sequenceError => 3
  | .frameOverrun => 4
  | .frameUnderrun => 5

/-- The level output ERR (R26). -/
def errLine (s : State) : Bool := s.st == .err

/-- The level output BUSY (R26). -/
def busyLine (s : State) : Bool := s.st == .pack

/-- The wires of the status port: the ten registers (R27). -/
structure StatusPort where
  st : BitVec 2
  errcode : BitVec 3
  width : BitVec 16
  height : BitVec 16
  x : BitVec 16
  y : BitVec 16
  bitpos : BitVec 37
  outcnt : BitVec 34
  acc : BitVec 8
  npend : BitVec 3
  deriving DecidableEq, Repr

/-- What the host reads between two commands (R27). Reading has no side effect. DEDUCED, log 17. -/
def statusPort (s : State) : StatusPort where
  st := s.st.code
  errcode := s.errcode.code
  width := s.width
  height := s.height
  x := s.x
  y := s.y
  bitpos := s.bitpos
  outcnt := s.outcnt
  acc := s.acc
  npend := s.npend

end Sys2Proof.Machine
end

