-- ==== Sys2Proof/Config.lean ====
section
/-! DEFINITION. What is fixed for the machine: the constants of 00_scope.md R7, and the two open parameters of
92_eei_decisions.md (D21, D25), which are constants without a body because no rule reads them. -/

namespace Sys2Proof.Config

/-- CHAN_MAX: the largest legal channel value (R7). -/
def chanMax : Nat := 255

/-- SHIFT: a sample is its channel shifted left by this many bits (R7). -/
def scaleShift : Nat := 2

/-- SAMPLE_W: bits in one field of the stream (R7). -/
def sampleBits : Nat := 10

/-- PIXEL_BITS: bits of one pixel in the stream (R7). -/
def pixelBits : Nat := 30

/-- The values of CMD_BYTE_ORDER (D21). -/
inductive CmdByteOrder where
  | big
  | little
  deriving DecidableEq, Repr, Inhabited

/-- CMD_BYTE_ORDER (D21), the byte order of a command word on a byte-addressed transport. OPEN: no rule reads it
(R72), and no definition of the model does. DEDUCED, log 8. -/
opaque cmdByteOrder : CmdByteOrder

/-- RESET_STYLE (D25), the polarity, synchrony and least width of the reset input, as some number. OPEN: no rule reads
it (R133), and no definition of the model does. DEDUCED, log 8. -/
opaque resetStyle : Nat

end Sys2Proof.Config
end

