-- ==== Sys2Proof/Machine/Operands.lean ====
section
/-! DEFINITION. What PIXEL does with each of its operands: the range check CHANOK (R74) and the channel scaler SCALE
(R73). The three lanes use the same two functions (R78, R98). -/

namespace Sys2Proof.Machine

/-- CHANOK: the whole 16-bit operand is at most 255 (R60, R74). -/
def chanOk (a : Operand) : Bool := decide (a.toNat ≤ Config.chanMax)

/-- The low 8 bits of an operand, which are its whole value once CHANOK has passed (R60). -/
def channelOf (a : Operand) : Channel := a.extractLsb' 0 8

/-- SCALE: the 8 channel bits followed by two 0 bits (R73). -/
def scale (c : Channel) : Sample := c ++ 0#2

/-- The sample of an operand that passed CHANOK (R101). -/
def sampleOf (a : Operand) : Sample := scale (channelOf a)

/-- Every channel of the pixel is legal: the test of PIXEL, the three lanes together (R99, R101). -/
def chansOk (r g b : Operand) : Bool := chanOk r && chanOk g && chanOk b

end Sys2Proof.Machine
end

