-- ==== Sys2Proof/Machine/Ops.lean ====
section
/-! DEFINITION. The named operations over the registers and the output stream: emit and DONE (R10), the serializer's
CLEAR, APPEND10 and PADFLUSH (R80, R85, R87), the cursor's advance (R102), fault entry (R121), the discarding of a
command in ERR (R123), and reset (R133), which is the only way out of a fault (R124). -/

namespace Sys2Proof.Machine

/-- `emit(b)`: append the byte at offset OUTCNT of the frame's output, then OUTCNT <- OUTCNT + 1 (R10, R38).
There is no other memory (DEDUCED, log 12), and the sink takes every byte (DEDUCED, log 16). -/
def emit (b : Byte) (s : State) : State :=
  { s with trace := s.trace ++ [.byte b], outcnt := s.outcnt + 1 }

/-- `pulse DONE` (R10, R28). -/
def pulseDone (s : State) : State := { s with trace := s.trace ++ [.done] }

/-- CLEAR: the empty accumulator (R87). -/
def clear (s : State) : State := { s with acc := 0, npend := 0, bitpos := 0, outcnt := 0 }

/-- The bits in hand, T of R80: the pending bits followed by the sample, at most 17 bits. -/
def bitsInHand (acc : BitVec 8) (p : Nat) (v : Sample) : BitVec 17 :=
  (acc >>> (8 - p)).setWidth 17 * 1024#17 + v.setWidth 17

/-- The low `r` bits of T moved to the top of a byte, zeros below: `(T[r-1:0] << (8-r))[7:0]` (R80). -/
def leftAligned (t : BitVec 17) (r : Nat) : Byte := t.setWidth 8 <<< (8 - r)

/-- `ACC <- a; NPEND <- n` (R80, R85). -/
def setPending (a : Byte) (n : Nat) (s : State) : State := { s with acc := a, npend := BitVec.ofNat 3 n }

/-- `BITPOS <- BITPOS + 10` (R80). -/
def advanceBitpos (s : State) : State := { s with bitpos := s.bitpos + 10 }

/-- APPEND10: append the ten bits of a sample, most significant first (R80), for every value of NPEND (DESIGN CHOICE,
log 6). -/
def append10 (v : Sample) (s : State) : State :=
  let p := s.npend.toNat
  let len := p + 10
  let t := bitsInHand s.acc p v
  if 16 ≤ len then
    advanceBitpos (setPending (leftAligned t (len - 16)) (len - 16)
      (emit (t.extractLsb' (len - 16) 8) (emit (t.extractLsb' (len - 8) 8) s)))
  else
    advanceBitpos (setPending (leftAligned t (len - 8)) (len - 8) (emit (t.extractLsb' (len - 8) 8) s))

/-- PADFLUSH: emit the pending bits, if any, with ACC's zero bits below them as the padding (R85, R86). BITPOS
stays. That the padding is at the low end is the spec's choice (DEDUCED, log 13). -/
def padFlush (s : State) : State := setPending 0 0 (if s.npend ≠ 0#3 then emit s.acc s else s)

/-- The row-major step of the cursor (R102). -/
def advanceCursor (s : State) : State :=
  if s.x + 1 = s.width then { s with x := 0, y := s.y + 1 } else { s with x := s.x + 1 }

/-- START's writes: the dimensions, the cursor at (0, 0), the empty accumulator, ST <- PACK (R93). -/
def openFrame (w h : Operand) (s : State) : State :=
  { clear s with width := w, height := h, x := 0, y := 0, st := .pack }

/-- END's last write to a register: ST <- IDLE (R106). -/
def closeFrame (s : State) : State := { s with st := .idle }

/-- Fault entry: `raise` (R10, R121). ST and ERRCODE are written and nothing else. -/
def raiseFault (c : ErrCode) (s : State) : State := { s with st := .err, errcode := c }

/-- A command taken in ST = ERR: no register changes and nothing is emitted (R123). -/
def discardCommand (s : State) : State := s

/-- The state with these host moves still to come (R39; DESIGN CHOICE, log 1). -/
def withInput (moves : List HostMove) (s : State) : State := { s with input := moves }

/-- Reset: every register takes its reset value, no byte and no DONE is emitted (R133). The trace is closed: its items
stay with the sink, and the trace of the new run is empty (R34, R134; DESIGN CHOICE, log 2).
The host's later moves stay. It is the only return from a fault (R124). -/
def assertReset (s : State) : State :=
  { State.reset with earlier := s.earlier ++ [s.trace], input := s.input }

end Sys2Proof.Machine
end

