-- ==== Sys2Proof/Machine/FramePacker.lean ====
section
/-! DEFINITION. The meanings of the three commands (42_frame_packer.md). Every check of a command comes before its first
write and its first emit (R122), in the order of R120. -/

namespace Sys2Proof.Machine

/-- START (R93): open a frame. Faults SEQUENCE_ERROR in PACK (R96); every width and height is accepted (R94, R95). -/
def execStart (w h : Operand) (s : State) : Host.Outcome State Fault Refusal :=
  if s.st = .err then .next (discardCommand s)
  else if s.st ≠ .idle then .next (raiseFault .sequenceError s)
  else .next (openFrame w h s)

/-- PIXEL (R101): check the state, the frame's count and the channels, in this order (R99); then scale the three
channels, append the three samples in the order R, G, B, and advance the cursor (R102). -/
def execPixel (r g b : Operand) (s : State) : Host.Outcome State Fault Refusal :=
  if s.st = .err then .next (discardCommand s)
  else if s.st ≠ .pack then .next (raiseFault .sequenceError s)
  else if full s then .next (raiseFault .frameOverrun s)
  else if chansOk r g b = false then .next (raiseFault .invalidChannelValue s)
  else .next (advanceCursor (append10 (sampleOf b) (append10 (sampleOf g) (append10 (sampleOf r) s))))

/-- END (R106): check the state and that the frame is full, then pad, close the frame and pulse DONE. -/
def execEnd (s : State) : Host.Outcome State Fault Refusal :=
  if s.st = .err then .next (discardCommand s)
  else if s.st ≠ .pack then .next (raiseFault .sequenceError s)
  else if full s = false then .next (raiseFault .frameUnderrun s)
  else .next (pulseDone (closeFrame (padFlush s)))

end Sys2Proof.Machine
end

