-- ==== Sys2Proof/Machine/Dispatch.lean ====
section
/-! DEFINITION. One arm per command: its meaning. -/

namespace Sys2Proof.Machine

def exec (i : Instr) (s : State) : Host.Outcome State Fault Refusal :=
  match i with
  | .start w h => Sys2Proof.Machine.execStart w h s
  | .pixel r g b => Sys2Proof.Machine.execPixel r g b s
  | .endFrame => Sys2Proof.Machine.execEnd s

end Sys2Proof.Machine
end

