-- ==== Sys2Proof/Machine/Port.lean ====
section
/-! DEFINITION. The command port and the reset input (R37, R39, R133): what the block does with the host's next move. -/

namespace Sys2Proof.Machine

/-- Take one command word (R39, R120): in ERR it is discarded, legal or not (R123); a word that decodes to ILLEGAL
raises ILLEGAL_COMMAND (R62, R115); any other runs its command. -/
def takeWord (w : Word) (s : State) : Host.Outcome State Fault Refusal :=
  if s.st = .err then .next (discardCommand s)
  else
    match decode w with
    | .ok i => exec i s
    | .error _ => .next (raiseFault .illegalCommand s)

/-- What the host's next move does. Without a move the block waits and nothing changes (R132, R144; DESIGN CHOICE, log 3). -/
def takeMove (s : State) : Host.Outcome State Fault Refusal :=
  match s.input with
  | [] => .next s
  | .word w :: rest => takeWord w (withInput rest s)
  | .reset :: rest => .next (assertReset (withInput rest s))

/-- The state with a word placed before the host's other moves, so that it is the next one taken (logs 10 and 11). -/
def presentWord (w : Word) (s : State) : State := withInput (.word w :: s.input) s

end Sys2Proof.Machine
end

