-- ==== Sys2Proof/Machine/Step.lean ====
section
/-! DEFINITION. One step of the machine: the host's next move (R50). -/

namespace Sys2Proof.Machine

/-- One step: the whole of one command, a reset, or nothing while the host presents nothing (R10, R39, R50). -/
def step (s : State) : Host.Outcome State Fault Refusal := takeMove s

/-- The state in which the host presents the table word next. A command is pushed, not fetched (R53): a program comes
to the block only by the host's moves (DESIGN CHOICE, log 10). -/
def State.withFetchWord (s : State) (nbits w : Nat) : State :=
  presentWord (BitVec.ofNat 64 (w % 2 ^ nbits)) s

end Sys2Proof.Machine
end

