-- ==== Sys2Proof/Machine/Reference.lean ====
section
/-! DEFINITION. The yardstick the commands are held to (R108): the packed bitstream of a list of pixels (R40), its bytes
(R41, R42), the reference function PACK (R108), and the reading of a field back out of the bytes (R43). None of it is
used by a command. -/

namespace Sys2Proof.Machine

/-- Every channel of the pixel is in [0, 255] (R108). -/
def pixelOk (p : Pixel) : Bool := chansOk p.r p.g p.b

/-- The channel of a field: 0 = R, 1 = G, 2 = B (R40). -/
def channelAt (p : Pixel) : Nat → Operand
  | 0 => p.r
  | 1 => p.g
  | _ => p.b

/-- S[k]: bit `k` of the packed bitstream of the pixels, false past its end (R40). -/
def streamBit (ps : List Pixel) (k : Nat) : Bool :=
  match ps[k / 30]? with
  | some p => (4 * (channelAt p (k % 30 / 10)).toNat).testBit (9 - k % 10)
  | none => false

/-- A byte from its eight bits, the earliest first and in bit 7 (R41). -/
def byteOfBits (f : Nat → Bool) : Byte :=
  BitVec.ofBool (f 0) ++ (BitVec.ofBool (f 1) ++ (BitVec.ofBool (f 2) ++ (BitVec.ofBool (f 3) ++
    (BitVec.ofBool (f 4) ++ (BitVec.ofBool (f 5) ++ (BitVec.ofBool (f 6) ++ BitVec.ofBool (f 7)))))))

/-- B[m]: byte `m` of the output of a stream (R41). Positions past the stream's end are the zero padding (R42). -/
def streamByte (ps : List Pixel) (m : Nat) : Byte := byteOfBits fun i => streamBit ps (8 * m + i)

/-- L, the bit length of the stream of `n` pixels (R40). -/
def streamLength (n : Nat) : Nat := Config.pixelBits * n

/-- M = ceil(L / 8), the number of output bytes of `n` pixels (R41, R48). -/
def outputLength (n : Nat) : Nat := (streamLength n + 7) / 8

/-- The bytes B[0], ..., B[M-1] of the pixels (R41). -/
def packBytes (ps : List Pixel) : List Byte := (List.range (outputLength ps.length)).map (streamByte ps)

/-- The result of PACK (R108). -/
inductive PackResult where
  /-- The output of the whole frame. -/
  | bytes (bs : List Byte)
  /-- Error(INVALID_CHANNEL_VALUE). -/
  | invalidChannelValue
  deriving DecidableEq, Repr

/-- PACK(W, H, P) (R108), for a list of W x H pixels in row-major order. Its length alone says W x H
(DESIGN CHOICE, log 15). -/
def pack (ps : List Pixel) : PackResult :=
  if ps.all pixelOk then .bytes (packBytes ps) else .invalidChannelValue

/-- The sample of field `f` of pixel `n`, read back from the bytes (R43): two bytes as one big-endian number T, then
T[15 - (s mod 8) : 6 - (s mod 8)], with s the stream bit at which the field starts. -/
def readField (bs : List Byte) (n f : Nat) : Sample :=
  let s := 30 * n + 10 * f
  let t : BitVec 16 := bs.getD (s / 8) 0 ++ bs.getD (s / 8 + 1) 0
  t.extractLsb' (6 - s % 8) 10

/-- The bits of a sample in stream order: bit 9 first (R68, R89). -/
def sampleBits (v : Sample) : List Bool := (List.range 10).map fun j => v.getLsbD (9 - j)

/-- The bits of a byte in stream order: bit 7 first (R41). -/
def byteBits (b : Byte) : List Bool := (List.range 8).map fun i => b.getLsbD (7 - i)

/-- The pending bits ACC[7 : 8-NPEND], the earliest first (R23). -/
def pendingBits (s : State) : List Bool := (byteBits s.acc).take s.npend.toNat

/-- The first `n` bits of the packed bitstream (R40). -/
def streamPrefix (ps : List Pixel) (n : Nat) : List Bool := (List.range n).map (streamBit ps)

/-- The complete bytes of a number of `len` bits sent most significant bit first (R67, R80). -/
def bytesOfNumber (t len : Nat) : List Byte :=
  (List.range (len / 8)).map fun k => BitVec.ofNat 8 (t / 2 ^ (len - 8 * (k + 1)))

/-- The bits of such a number that are left over after its complete bytes, left-aligned with zeros below (R23, R80). -/
def tailOfNumber (t len : Nat) : Byte := BitVec.ofNat 8 (t % 2 ^ (len % 8) * 2 ^ (8 - len % 8))

/-- The pending bits of ACC, then `n` more bits of the value `v`, as one number (R80). -/
def withPending (s : State) (n v : Nat) : Nat := s.acc.toNat / 2 ^ (8 - s.npend.toNat) * 2 ^ n + v

/-- The 30-bit pixel group as a number (R67). -/
def pixelGroup (r g b : Operand) : Nat := 4 * r.toNat * 2 ^ 20 + 4 * g.toNat * 2 ^ 10 + 4 * b.toNat

/-- The commands that PACK w, h, grid expands to (R66). -/
def expandPack (w h : Operand) (ps : List Pixel) : List Instr :=
  .start w h :: (ps.map (fun p => .pixel p.r p.g p.b) ++ [.endFrame])

end Sys2Proof.Machine
end

