-- ==== Sys2Proof/Machine/Assembler.lean ====
section
/-! DEFINITION. The assembler's notation (R65) and its one pseudo-instruction PACK (R66, D17). It is a way to write
command sequences down; the block sees only the words. -/

namespace Sys2Proof.Machine

/-- A pixel written as three numbers that fit their fields. -/
def pixelOfNats (p : Nat × Nat × Nat) : Pixel :=
  ⟨BitVec.ofNat 16 p.1, BitVec.ofNat 16 p.2.1, BitVec.ofNat 16 p.2.2⟩

/-- The commands of a line. An operand that does not fit in 16 bits is refused; PIXEL operands from 256 to 65535 are
not (R65). PACK expands to START, one PIXEL per pixel, END (R66). -/
def assemble (l : AsmLine) : Option (List Instr) :=
  if l.wellFormed then
    match l with
    | .start w h => some [.start (BitVec.ofNat 16 w) (BitVec.ofNat 16 h)]
    | .pixel r g b => some [.pixel (BitVec.ofNat 16 r) (BitVec.ofNat 16 g) (BitVec.ofNat 16 b)]
    | .endFrame => some [.endFrame]
    | .pack w h grid => some (expandPack (BitVec.ofNat 16 w) (BitVec.ofNat 16 h) (grid.map pixelOfNats))
  else none

/-- The host's moves that present the commands in order. -/
def presentAll (is : List Instr) : List HostMove := is.map fun i => .word (encode i)

/-- A token of a line: a mark of punctuation, or the characters between marks and spaces. -/
inductive Token where
  | mark (c : Char)
  | text (cs : List Char)
  deriving DecidableEq, Repr

/-- Close the text collected so far (newest character first). -/
def closeText (acc : List Char) (rest : List Token) : List Token :=
  if acc.isEmpty then rest else .text acc.reverse :: rest

/-- The tokens of a line: `;` starts a comment, spaces and tabs separate (R65; DESIGN CHOICE, log 14). -/
def tokenize (acc : List Char) : List Char → List Token
  | [] => closeText acc []
  | c :: cs =>
    if c = ';' then closeText acc []
    else if c = ' ' ∨ c = '\t' then closeText acc (tokenize [] cs)
    else if c = ',' ∨ c = '(' ∨ c = ')' ∨ c = '[' ∨ c = ']' then closeText acc (.mark c :: tokenize [] cs)
    else tokenize (c :: acc) cs

/-- The value of a digit, if it is one in the base. -/
def digitValue (base : Nat) (c : Char) : Option Nat :=
  let v :=
    if '0'.toNat ≤ c.toNat ∧ c.toNat ≤ '9'.toNat then some (c.toNat - '0'.toNat)
    else if 'A'.toNat ≤ c.toNat ∧ c.toNat ≤ 'F'.toNat then some (c.toNat - 'A'.toNat + 10)
    else if 'a'.toNat ≤ c.toNat ∧ c.toNat ≤ 'f'.toNat then some (c.toNat - 'a'.toNat + 10)
    else none
  match v with
  | some d => if d < base then some d else none
  | none => none

/-- The number the digits write, most significant first, after the digits already read. -/
def digitsValue (base : Nat) : Nat → List Char → Option Nat
  | n, [] => some n
  | n, c :: cs =>
    match digitValue base c with
    | some d => digitsValue base (n * base + d) cs
    | none => none

/-- A number in decimal, or in hexadecimal after `0x` (R65). -/
def numberOf : List Char → Option Nat
  | [] => none
  | '0' :: 'x' :: c :: cs => digitsValue 16 0 (c :: cs)
  | c :: cs => digitsValue 10 0 (c :: cs)

/-- The pixels of a PACK grid, each `(r, g, b)`, separated by commas, up to the closing `]` (D17). -/
def gridPixels : List Token → Option (List (Nat × Nat × Nat))
  | .mark '(' :: .text r :: .mark ',' :: .text g :: .mark ',' :: .text b :: .mark ')' :: rest =>
    match numberOf r, numberOf g, numberOf b, rest with
    | some r, some g, some b, [.mark ']'] => some [(r, g, b)]
    | some r, some g, some b, .mark ',' :: more =>
      match gridPixels more with
      | some ps => some ((r, g, b) :: ps)
      | none => none
    | _, _, _, _ => none
  | _ => none

/-- A whole PACK grid, `[]` included. -/
def gridOf : List Token → Option (List (Nat × Nat × Nat))
  | .mark '[' :: .mark ']' :: [] => some []
  | .mark '[' :: rest => gridPixels rest
  | _ => none

/-- What one line of text says (R65, R66): `some none` for a line with nothing but a comment, `none` for no line of
the notation. Mnemonics are in capitals. -/
def parseTokens : List Token → Option (Option AsmLine)
  | [] => some none
  | [.text ['E', 'N', 'D']] => some (some .endFrame)
  | [.text ['S', 'T', 'A', 'R', 'T'], .text w, .mark ',', .text h] =>
    match numberOf w, numberOf h with
    | some w, some h => some (some (.start w h))
    | _, _ => none
  | [.text ['P', 'I', 'X', 'E', 'L'], .text r, .mark ',', .text g, .mark ',', .text b] =>
    match numberOf r, numberOf g, numberOf b with
    | some r, some g, some b => some (some (.pixel r g b))
    | _, _, _ => none
  | .text ['P', 'A', 'C', 'K'] :: .text w :: .mark ',' :: .text h :: .mark ',' :: rest =>
    match numberOf w, numberOf h, gridOf rest with
    | some w, some h, some grid => some (some (.pack w h grid))
    | _, _, _ => none
  | _ => none

/-- The commands a line of text stands for; `none` where an assembler must refuse it (R65). -/
def assembleText (line : List Char) : Option (List Instr) :=
  match parseTokens (tokenize [] line) with
  | some (some l) => assemble l
  | some none => some []
  | none => none

end Sys2Proof.Machine
end

