-- ==== Sys2Proof/Machine/Endings.lean ====
section
/-! DEFINITION. The end of a frame and the end of a run (R144). No command uses them: claims do. -/

namespace Sys2Proof.Machine

/-- How a frame has ended (R144). -/
inductive FrameEnd where
  /-- Its END has been executed successfully. -/
  | well
  /-- A fault was taken, or reset came while it was open. -/
  | badly
  deriving DecidableEq, Repr

/-- Reset comes while a frame is open: the step from here is a reset and ST = PACK (R134, R144). -/
def resetCutsFrame (s : State) : Bool := s.st == .pack && s.input.head? == some .reset

/-- How the last frame has ended, seen right after the step from `before` to `after`: badly when ST = ERR or when that
step was a reset in ST = PACK; well when its DONE is in the output trace and ST = IDLE; `none` when neither has come
about (R144; DEDUCED, log 19). -/
def frameEnd (before after : State) : Option FrameEnd :=
  if after.st = .err ∨ resetCutsFrame before = true then some .badly
  else if after.st = .idle ∧ after.trace.getLast? = some .done then some .well
  else none

/-- The three kinds of end state of a run (R144). -/
inductive RunEnd where
  /-- ST = IDLE and ERRCODE = 0. -/
  | good
  /-- A fault has been taken. -/
  | faulted
  /-- ST = PACK: an unfinished frame, which is no fault and no completed conversion. -/
  | unfinished
  deriving DecidableEq, Repr

/-- The kind of end state that a run has if it ends here (R144). -/
def endState (s : State) : RunEnd :=
  match s.st with
  | .idle => if s.errcode = .none then .good else .faulted
  | .pack => .unfinished
  | .err => .faulted

/-- The end of the run, if it is here: a model ends a run when the host's command list for it is exhausted, that is,
when the next move, if any, is the reset that begins another run (R144; DEDUCED, log 19). -/
def runEnd (s : State) : Option RunEnd :=
  match s.input with
  | .word _ :: _ => none
  | [] => some (endState s)
  | .reset :: _ => some (endState s)

end Sys2Proof.Machine
end

