-- ==== Sys2Proof/Safety.lean ====
section
/-! DEFINITION. What claims speak of: runs of steps, what a conforming sink accepts (R138), completed frames, and the
invariant of the machine (R31 to R33). The end of a frame and of a run (R144) is Machine/Endings.lean. -/

namespace Sys2Proof.Machine

/-- `n` steps, stopping at a fault or a refusal. -/
def run : Nat → State → Host.Outcome State Fault Refusal
  | 0, s => .next s
  | n + 1, s =>
    match step s with
    | .next s' => run n s'
    | .fault r => .fault r
    | .refused r => .refused r

/-- Everything the sink has been given since the machine's first reset, in order: no reset takes an item back (R134). -/
def history (s : State) : List OutItem := s.earlier.flatten ++ s.trace

/-- The frames of one run that a conforming sink accepts, and nothing of a frame without its DONE (R138): the bytes up
to each DONE; `acc` holds the bytes of the frame in progress. -/
def acceptedFrom (acc : List Byte) : List OutItem → List (List Byte)
  | [] => []
  | .byte b :: rest => acceptedFrom (acc ++ [b]) rest
  | .done :: rest => acc :: acceptedFrom [] rest

/-- All frames a conforming sink accepts. A reset makes it drop the frame in progress (R138), so each run is read by
itself (DEDUCED, log 18). -/
def acceptedFrames (s : State) : List (List Byte) := (s.earlier ++ [s.trace]).flatMap (acceptedFrom [])

/-- A frame as the host means it: dimensions, and the pixels in row-major order (R12, R108). -/
structure Frame where
  width : Operand
  height : Operand
  pixels : List Pixel
  deriving DecidableEq, Repr

/-- The frame has W x H pixels and every channel is legal (R108). -/
def Frame.legal (f : Frame) : Prop :=
  f.pixels.length = f.width.toNat * f.height.toNat ∧ ∀ p ∈ f.pixels, pixelOk p = true

/-- What a completed frame puts on the output: the bytes of PACK, then DONE (R28, R109). -/
def Frame.items (f : Frame) : List OutItem := (packBytes f.pixels).map .byte ++ [.done]

/-- The output is that of completed frames, in order. -/
def CompletedOutput (t : List OutItem) : Prop := ∃ fs : List Frame, (∀ f ∈ fs, f.legal) ∧ t = fs.flatMap Frame.items

/-- A closed run: completed frames, then perhaps some bytes of a frame that did not complete (R134, R138). -/
def ClosedRun (t : List OutItem) : Prop :=
  ∃ (t' : List OutItem) (bs : List Byte), CompletedOutput t' ∧ t = t' ++ bs.map .byte

/-- R31, I1 to I8 and I10, about the registers and the trace of an open frame. `I10`: the bytes emitted since START,
followed by the pending bits, are the first BITPOS bits of the stream of the pixels accepted. -/
structure OpenFrame (s : State) : Prop where
  i1 : s.width = 0#16 → s.x = 0 ∧ s.y = 0
  i2 : s.width ≠ 0#16 → s.x < s.width
  i3 : s.y ≤ s.height
  i4 : s.y = s.height → s.width ≠ 0#16 → s.x = 0
  i5 : s.bitpos.toNat = 30 * (s.y.toNat * s.width.toNat + s.x.toNat)
  i6 : s.npend.toNat = s.bitpos.toNat % 8
  i7 : s.outcnt.toNat = s.bitpos.toNat / 8
  i8 : s.acc <<< s.npend.toNat = 0
  i10 : ∃ (t : List OutItem) (bs : List Byte) (ps : List Pixel), CompletedOutput t ∧ s.trace = t ++ bs.map .byte ∧
    bs.length = s.outcnt.toNat ∧ ps.length = s.y.toNat * s.width.toNat + s.x.toNat ∧ (∀ p ∈ ps, pixelOk p = true) ∧
    bs.flatMap byteBits ++ pendingBits s = streamPrefix ps s.bitpos.toNat

/-- R32: the registers between frames. Either they and the trace are as reset leaves them, or they are the final values
of the last frame of the trace. -/
structure BetweenFrames (s : State) : Prop where
  acc : s.acc = 0
  npend : s.npend = 0
  last : (s.width = 0 ∧ s.height = 0 ∧ s.x = 0 ∧ s.y = 0 ∧ s.bitpos = 0 ∧ s.outcnt = 0 ∧ s.trace = []) ∨
    ∃ (t : List OutItem) (f : Frame), CompletedOutput t ∧ f.legal ∧ s.trace = t ++ f.items ∧
      s.width = f.width ∧ s.height = f.height ∧ s.x = 0 ∧ s.y = (if f.width = 0#16 then 0 else f.height) ∧
      s.bitpos.toNat = 30 * (f.width.toNat * f.height.toNat) ∧ s.outcnt.toNat = (s.bitpos.toNat + 7) / 8

/-- The invariant of the machine: R31 with I9 while ST = PACK, R32 while ST = IDLE, R33 while ST = ERR (the registers
other than ST and ERRCODE are those of an open frame or of the time between frames). -/
structure Inv (s : State) : Prop where
  packed : s.st = .pack → s.errcode = .none ∧ OpenFrame s
  idle : s.st = .idle → s.errcode = .none ∧ BetweenFrames s
  failed : s.st = .err → s.errcode ≠ .none ∧ (OpenFrame s ∨ BetweenFrames s)

/-- Every run before the last reset left completed frames and at most one frame that did not complete (R134, R138). -/
def EarlierClosed (s : State) : Prop := ∀ t ∈ s.earlier, ClosedRun t

end Sys2Proof.Machine
end

