-- ==== Sys2Proof/Certificates/Slice0/Obligations.lean ====
section
/-! DEFINITION. The statements for the provers, each from the rules of spec/ that its docstring names. -/

open Sys2Proof Sys2Proof.Machine

/-! Encoding (30_encoding.md) -/

/-- R61: decoding is the function of the rule's pseudocode, the three tests exclude each other, and encoding is its
inverse both ways. -/
def Obligations.DecodingInvertsEncoding : Prop :=
  (∀ w : Word,
    let op := w.toNat / 2 ^ 56
    let z := w.toNat / 2 ^ 48 % 2 ^ 8
    let a := w.toNat / 2 ^ 32 % 2 ^ 16
    let b := w.toNat / 2 ^ 16 % 2 ^ 16
    let c := w.toNat % 2 ^ 16
    (decode w).toOption =
      if op = 1 ∧ z = 0 ∧ c = 0 then some (.start (BitVec.ofNat 16 a) (BitVec.ofNat 16 b))
      else if op = 2 ∧ z = 0 then some (.pixel (BitVec.ofNat 16 a) (BitVec.ofNat 16 b) (BitVec.ofNat 16 c))
      else if op = 3 ∧ z = 0 ∧ a = 0 ∧ b = 0 ∧ c = 0 then some .endFrame
      else none) ∧
  (∀ w : Word,
    ¬ (w &&& 0xFFFF00000000FFFF = 0x0100000000000000 ∧ w &&& 0xFFFF000000000000 = 0x0200000000000000) ∧
    ¬ (w &&& 0xFFFF00000000FFFF = 0x0100000000000000 ∧ w = 0x0300000000000000) ∧
    ¬ (w &&& 0xFFFF000000000000 = 0x0200000000000000 ∧ w = 0x0300000000000000)) ∧
  (∀ i : Instr, decode (encode i) = .ok i) ∧
  (∀ (w : Word) (i : Instr), decode w = .ok i → encode i = w)

/-- R57, R58, R59: a word is START, PIXEL or END exactly when it has the row's match under the row's mask, and its
operands are the fields A, B, C; the rules' examples. -/
def Obligations.OpcodeTableRowsDecode : Prop :=
  (∀ (w : Word) (a b : Operand), decode w = .ok (.start a b) ↔
    w &&& 0xFFFF00000000FFFF = 0x0100000000000000 ∧ a.toNat = w.toNat / 2 ^ 32 % 2 ^ 16 ∧
      b.toNat = w.toNat / 2 ^ 16 % 2 ^ 16) ∧
  (∀ (w : Word) (r g b : Operand), decode w = .ok (.pixel r g b) ↔
    w &&& 0xFFFF000000000000 = 0x0200000000000000 ∧ r.toNat = w.toNat / 2 ^ 32 % 2 ^ 16 ∧
      g.toNat = w.toNat / 2 ^ 16 % 2 ^ 16 ∧ b.toNat = w.toNat % 2 ^ 16) ∧
  (∀ w : Word, decode w = .ok .endFrame ↔ w &&& 0xFFFFFFFFFFFFFFFF = 0x0300000000000000) ∧
  (∀ w h : Operand, (encode (.start w h)).toNat = 0x01 * 2 ^ 56 + w.toNat * 2 ^ 32 + h.toNat * 2 ^ 16) ∧
  (∀ r g b : Operand,
    (encode (.pixel r g b)).toNat = 0x02 * 2 ^ 56 + r.toNat * 2 ^ 32 + g.toNat * 2 ^ 16 + b.toNat) ∧
  encode .endFrame = 0x0300000000000000 ∧
  encode (.start 2 1) = 0x0100000200010000 ∧ encode (.pixel 255 128 0) = 0x020000FF00800000

/-- R62: which words are illegal, what executing one does in each state, and how many words of each kind there are. -/
def Obligations.IllegalWordsRaiseOrAreDiscarded : Prop :=
  (∀ w : Word, (decode w).toOption = none ↔
    (w.toNat / 2 ^ 56 = 0 ∨ 4 ≤ w.toNat / 2 ^ 56 ∨ w.toNat / 2 ^ 48 % 2 ^ 8 ≠ 0 ∨
      (w.toNat / 2 ^ 56 = 1 ∧ w.toNat % 2 ^ 16 ≠ 0) ∨ (w.toNat / 2 ^ 56 = 3 ∧ w.toNat % 2 ^ 48 ≠ 0))) ∧
  (∀ (w : Word) (s : State), (decode w).toOption = none → s.st ≠ .err →
    step (presentWord w s) = .next { s with st := .err, errcode := .illegalCommand }) ∧
  (∀ (w : Word) (s : State), (decode w).toOption = none → s.st = .err → step (presentWord w s) = .next s) ∧
  Nat.card { w : Word // ∃ a b, decode w = .ok (.start a b) } = 2 ^ 32 ∧
  Nat.card { w : Word // ∃ r g b, decode w = .ok (.pixel r g b) } = 2 ^ 48 ∧
  Nat.card { w : Word // decode w = .ok .endFrame } = 1

/-- Words of 95_test_vectors.md section 2.4 decode to what stands beside them there. -/
def Obligations.WrittenWordsDecode : Prop :=
  decode 0x0100078004380000 = .ok (.start 1920 1080) ∧
  decode 0x0100FFFFFFFF0000 = .ok (.start 65535 65535) ∧
  decode 0x020000FF00800000 = .ok (.pixel 255 128 0) ∧
  decode 0x0200010000000000 = .ok (.pixel 256 0 0) ∧
  decode 0x0300000000000000 = .ok .endFrame ∧
  (decode 0x0100000100010001).toOption = none ∧ (decode 0x0101000100010000).toOption = none ∧
  (decode 0x0300000000000001).toOption = none ∧ (decode 0x0000000000000000).toOption = none

/-- R66: PACK expands to 2 + w x h words, START first, then the pixels in list order, then END. -/
def Obligations.PackExpandsToFrameCommands : Prop :=
  ∀ (w h : Nat) (grid : List (Nat × Nat × Nat)), (AsmLine.pack w h grid).wellFormed = true →
    ∃ is, assemble (.pack w h grid) = some is ∧ is.length = 2 + w * h ∧
      assemble (.start w h) = some (is.take 1) ∧
      (∀ (n : Nat) (r g b : Nat), grid[n]? = some (r, g, b) →
        assemble (.pixel r g b) = some ((is.drop (n + 1)).take 1)) ∧
      is.drop (w * h + 1) = [.endFrame]

/-- R65: what each line stands for, with the operands in the order they are written (PIXEL's order is R, G, B); an
operand that does not fit in 16 bits is refused, and no PIXEL operand that fits is; a PACK line that is not well formed
is refused (R66); and lines as text, with decimal and hexadecimal numbers and a comment. -/
def Obligations.AssemblerRefusesWideOperands : Prop :=
  (∀ w h : Nat, (assemble (.start w h)).isSome ↔ w ≤ 65535 ∧ h ≤ 65535) ∧
  (∀ r g b : Nat, (assemble (.pixel r g b)).isSome ↔ r ≤ 65535 ∧ g ≤ 65535 ∧ b ≤ 65535) ∧
  (∀ w h : Operand, assemble (.start w.toNat h.toNat) = some [.start w h]) ∧
  (∀ r g b : Operand, assemble (.pixel r.toNat g.toNat b.toNat) = some [.pixel r g b]) ∧
  assemble .endFrame = some [.endFrame] ∧
  (∀ (w h : Nat) (grid : List (Nat × Nat × Nat)), (assemble (.pack w h grid)).isSome ↔
    w ≤ 65535 ∧ h ≤ 65535 ∧ grid.length = w * h ∧
      ∀ p ∈ grid, p.1 ≤ 65535 ∧ p.2.1 ≤ 65535 ∧ p.2.2 ≤ 65535) ∧
  assembleText "START 1920, 0x438 ; a frame".toList = some [.start 1920 1080] ∧
  assembleText "PIXEL 1, 0x2, 300".toList = some [.pixel 1 2 300] ∧
  assembleText "END".toList = some [.endFrame] ∧
  assembleText "PACK 2, 1, [(1,2,3), (4,5,6)]".toList =
    some [.start 2 1, .pixel 1 2 3, .pixel 4 5 6, .endFrame] ∧
  assembleText "PIXEL 1, 2, 65536".toList = none ∧ assembleText "PACK 2, 1, [(1,2,3)]".toList = none

/-! The scaler (40_scaler.md) -/

/-- R75: SCALE is exact, and multiplication, shift and concatenation agree. -/
def Obligations.ScalingIsExact : Prop :=
  ∀ c : Channel, (scale c).toNat = 4 * c.toNat ∧ (scale c).toNat < 1024 ∧ scale c = 4#10 * c.setWidth 10 ∧
    scale c = c.setWidth 10 <<< 2 ∧ scale c = c ++ 0#2

/-- R76: the samples are the 256 multiples of 4 from 0 to 1020, and the channel is the sample div 4. -/
def Obligations.ScaledSamplesAreMultiplesOfFour : Prop :=
  (∀ v : Sample, (∃ c : Channel, scale c = v) ↔ v.toNat % 4 = 0 ∧ v.toNat ≤ 1020) ∧
  (∀ c : Channel, (scale c).toNat / 4 = c.toNat) ∧
  (∀ c d : Channel, scale c = scale d → c = d) ∧
  (∀ c : Channel, (scale c).toNat ≠ 1021 ∧ (scale c).toNat ≠ 1022 ∧ (scale c).toNat ≠ 1023)

/-- R74, the range check: at most 255, which is that the upper 8 bits are 0; what passes is its low 8 bits, and its
sample is four times the operand. -/
def Obligations.RangeCheckReadsWholeOperand : Prop :=
  ∀ a : Operand, (chanOk a = true ↔ a.toNat ≤ 255) ∧ (chanOk a = true ↔ a.extractLsb' 8 8 = 0) ∧
    (chanOk a = true → (sampleOf a).toNat = 4 * a.toNat)

/-! The serializer (41_serializer.md) -/

/-- R80: the effect of APPEND10 for every value of NPEND, in integers: the bits in hand are the pending bits and then
the ten of the sample; the complete bytes are emitted and the rest is left in ACC. -/
def Obligations.AppendEmitsCompleteBytes : Prop :=
  (∀ (s : State) (v : Sample),
    let t := withPending s 10 v.toNat
    let len := s.npend.toNat + 10
    append10 v s =
      { s with
        trace := s.trace ++ (bytesOfNumber t len).map .byte
        outcnt := s.outcnt + BitVec.ofNat 34 (len / 8)
        acc := tailOfNumber t len
        npend := BitVec.ofNat 3 (len % 8)
        bitpos := s.bitpos + 10 }) ∧
  (∀ s : State, s.acc = 0xC0 → s.npend = 2 →
    append10 516 s =
      { s with trace := s.trace ++ [.byte 0xE0], outcnt := s.outcnt + 1, acc := 0x40, npend := 4,
               bitpos := s.bitpos + 10 })

/-- R81: the table of APPEND10 for the values of NPEND that occur, and four appends emit five bytes. -/
def Obligations.AppendTable : Prop :=
  (∀ (s : State) (v : Sample), s.npend = 0#3 → append10 v s =
    { s with trace := s.trace ++ [.byte (v.extractLsb' 2 8)], outcnt := s.outcnt + 1,
             acc := v.extractLsb' 0 2 ++ 0#6, npend := 2, bitpos := s.bitpos + 10 }) ∧
  (∀ (s : State) (v : Sample), s.npend = 2 → append10 v s =
    { s with trace := s.trace ++ [.byte (s.acc.extractLsb' 6 2 ++ v.extractLsb' 4 6)], outcnt := s.outcnt + 1,
             acc := v.extractLsb' 0 4 ++ 0#4, npend := 4, bitpos := s.bitpos + 10 }) ∧
  (∀ (s : State) (v : Sample), s.npend = 4 → append10 v s =
    { s with trace := s.trace ++ [.byte (s.acc.extractLsb' 4 4 ++ v.extractLsb' 6 4)], outcnt := s.outcnt + 1,
             acc := v.extractLsb' 0 6 ++ 0#2, npend := 6, bitpos := s.bitpos + 10 }) ∧
  (∀ (s : State) (v : Sample), s.npend = 6 → append10 v s =
    { s with trace := s.trace ++ [.byte (s.acc.extractLsb' 2 6 ++ v.extractLsb' 8 2), .byte (v.extractLsb' 0 8)],
             outcnt := s.outcnt + 2, acc := 0, npend := 0, bitpos := s.bitpos + 10 }) ∧
  (∀ (s : State) (v1 v2 v3 v4 : Sample), s.npend = 0#3 →
    ∃ bs : List Byte, bs.length = 5 ∧
      (append10 v4 (append10 v3 (append10 v2 (append10 v1 s)))).trace = s.trace ++ bs.map .byte ∧
      (append10 v4 (append10 v3 (append10 v2 (append10 v1 s)))).npend = 0)

/-- R83: what APPEND10 keeps true, and its emitted bytes followed by what stays pending are the bits that were pending
followed by the sample's: no zero bit is inserted. -/
def Obligations.AppendKeepsSerializerLaws : Prop :=
  ∀ (s : State) (v : Sample), s.acc <<< s.npend.toNat = 0 → s.npend.toNat = s.bitpos.toNat % 8 →
    s.outcnt.toNat = s.bitpos.toNat / 8 →
    (append10 v s).acc <<< (append10 v s).npend.toNat = 0 ∧
    (append10 v s).npend.toNat = (append10 v s).bitpos.toNat % 8 ∧
    (append10 v s).outcnt.toNat = (append10 v s).bitpos.toNat / 8 ∧
    ∃ bs : List Byte, (append10 v s).trace = s.trace ++ bs.map .byte ∧
      bs.flatMap byteBits ++ pendingBits (append10 v s) = pendingBits s ++ sampleBits v

/-- R82: how NPEND moves, and that it is even in every state that a run reaches from a state in which it is. -/
def Obligations.PendingCountStaysEven : Prop :=
  (∀ s : State, (clear s).npend = 0) ∧
  (∀ (s : State) (v : Sample), (append10 v s).npend.toNat = (s.npend.toNat + 2) % 8) ∧
  (∀ s : State, (padFlush s).npend = 0) ∧
  (∀ (s : State) (r g b : Operand), s.st = .pack → full s = false → chansOk r g b = true →
    ∃ s', exec (.pixel r g b) s = .next s' ∧ s'.npend.toNat = (s.npend.toNat + 6) % 8) ∧
  State.reset.npend.toNat % 2 = 0 ∧
  (∀ s s' : State, s.npend.toNat % 2 = 0 → step s = .next s' → s'.npend.toNat % 2 = 0)

/-- R85 and R87: PADFLUSH emits ACC when bits are pending and nothing otherwise; CLEAR emits nothing. BITPOS is kept by
the one and cleared by the other. Where the low 8 - NPEND bits of ACC are 0 (I8 of R31), the byte emitted is the pending
bits and then that many zero bits: they are the padding. -/
def Obligations.PadFlushAndClear : Prop :=
  (∀ s : State, s.npend ≠ 0#3 → padFlush s =
    { s with trace := s.trace ++ [.byte s.acc], outcnt := s.outcnt + 1, acc := 0, npend := 0 }) ∧
  (∀ s : State, s.npend = 0#3 → padFlush s = { s with acc := 0, npend := 0 }) ∧
  (∀ s : State, clear s = { s with acc := 0, npend := 0, bitpos := 0, outcnt := 0 }) ∧
  (∀ s : State, s.npend ≠ 0#3 → s.acc <<< s.npend.toNat = 0 → ∃ b : Byte, (padFlush s).trace = s.trace ++ [.byte b] ∧
    byteBits b = pendingBits s ++ List.replicate (8 - s.npend.toNat) false ∧
    ∀ i, i < 8 - s.npend.toNat → b.getLsbD i = false) ∧
  (∀ s : State, s.acc = 0xF0 → s.npend = 6 → (padFlush s).trace = s.trace ++ [.byte 0xF0])

/-- R89: the serializer against the plain list of the bits appended since CLEAR, as long as BITPOS can hold their
number (R20 says it can). -/
def Obligations.SerializerHoldsPlainBitList : Prop :=
  ∀ (s : State) (vs : List Sample), 10 * vs.length < 2 ^ 37 →
    let bits := vs.flatMap sampleBits
    let s1 := vs.foldl (fun t v => append10 v t) (clear s)
    s1.bitpos.toNat = bits.length ∧
    s1.trace = s.trace ++
      ((List.range (bits.length / 8)).map fun m => byteOfBits fun i => bits.getD (8 * m + i) false).map .byte ∧
    s1.npend.toNat = bits.length % 8 ∧
    pendingBits s1 = bits.drop (8 * (bits.length / 8)) ∧
    (padFlush s1).trace = s.trace ++
      ((List.range ((bits.length + 7) / 8)).map fun m => byteOfBits fun i => bits.getD (8 * m + i) false).map .byte

/-! The frame packer (42_frame_packer.md) -/

/-- R93: START in every state; in IDLE it answers the state with the frame opened and nothing else changed. -/
def Obligations.StartOpensFrame : Prop :=
  (∀ (s : State) (w h : Operand), s.st = .idle →
    exec (.start w h) s =
      .next { s with st := .pack, width := w, height := h, x := 0, y := 0, acc := 0, npend := 0, bitpos := 0,
                     outcnt := 0 }) ∧
  (∀ (s : State) (w h : Operand), s.st = .pack →
    exec (.start w h) s = .next { s with st := .err, errcode := .sequenceError }) ∧
  (∀ (s : State) (w h : Operand), s.st = .err → exec (.start w h) s = .next s) ∧
  (∀ (s s' : State) (w h : Operand), s.st = .idle → exec (.start w h) s = .next s' → busyLine s' = true) ∧
  step (presentWord 0x0100000200010000 State.reset) = .next { State.reset with st := .pack, width := 2, height := 1 }

/-- R101, R102: PIXEL in every state. In PACK, with the frame not full and every channel legal, it answers the state in
which the pending bits and the 30-bit group of the pixel have gone out as complete bytes, the rest is pending, the
cursor has made its step, and nothing else is changed. -/
def Obligations.PixelPacksThreeSamples : Prop :=
  (∀ (s : State) (r g b : Operand), s.st = .pack → s.width ≠ 0#16 → s.y ≠ s.height →
    r.toNat ≤ 255 → g.toNat ≤ 255 → b.toNat ≤ 255 →
    let t := withPending s 30 (pixelGroup r g b)
    let len := s.npend.toNat + 30
    exec (.pixel r g b) s =
      .next { s with
        trace := s.trace ++ (bytesOfNumber t len).map .byte
        outcnt := s.outcnt + BitVec.ofNat 34 (len / 8)
        acc := tailOfNumber t len
        npend := BitVec.ofNat 3 ((s.npend.toNat + 6) % 8)
        bitpos := s.bitpos + 30
        x := if s.x + 1 = s.width then 0 else s.x + 1
        y := if s.x + 1 = s.width then s.y + 1 else s.y }) ∧
  (∀ (s : State) (r g b : Operand), s.st = .err → exec (.pixel r g b) s = .next s) ∧
  (∀ (s : State) (r g b : Operand), s.st = .idle →
    exec (.pixel r g b) s = .next { s with st := .err, errcode := .sequenceError }) ∧
  (∀ (s : State) (r g b : Operand), s.st = .pack → s.width = 0#16 ∨ s.y = s.height →
    exec (.pixel r g b) s = .next { s with st := .err, errcode := .frameOverrun }) ∧
  (∀ (s : State) (r g b : Operand), s.st = .pack → s.width ≠ 0#16 → s.y ≠ s.height →
    255 < r.toNat ∨ 255 < g.toNat ∨ 255 < b.toNat →
    exec (.pixel r g b) s = .next { s with st := .err, errcode := .invalidChannelValue }) ∧
  exec (.pixel 255 128 0) { State.reset with st := .pack, width := 1, height := 1 } =
    .next { State.reset with
      st := .pack, width := 1, height := 1, y := 1, npend := 6, bitpos := 30, outcnt := 3,
      trace := [.byte 0xFF, .byte 0x20, .byte 0x00] }

/-- R106: END in every state. In PACK with the frame full it answers the state in which the pending bits, if any, have
gone out as one padded byte, DONE has followed, the block is idle, and nothing else is changed. In a state with the
invariant OUTCNT ends at ceil(BITPOS / 8). The last clause is the rule's example. -/
def Obligations.EndFlushesAndCloses : Prop :=
  (∀ s : State, s.st = .pack → s.width = 0#16 ∨ s.y = s.height → s.npend ≠ 0#3 →
    exec .endFrame s =
      .next { s with st := .idle, acc := 0, npend := 0, outcnt := s.outcnt + 1,
                     trace := s.trace ++ [.byte s.acc, .done] }) ∧
  (∀ s : State, s.st = .pack → s.width = 0#16 ∨ s.y = s.height → s.npend = 0#3 →
    exec .endFrame s = .next { s with st := .idle, acc := 0, trace := s.trace ++ [.done] }) ∧
  (∀ s : State, s.st = .err → exec .endFrame s = .next s) ∧
  (∀ s : State, s.st = .idle → exec .endFrame s = .next { s with st := .err, errcode := .sequenceError }) ∧
  (∀ s : State, s.st = .pack → s.width ≠ 0#16 → s.y ≠ s.height →
    exec .endFrame s = .next { s with st := .err, errcode := .frameUnderrun }) ∧
  (∀ s s' : State, Inv s → s.st = .pack → full s = true → exec .endFrame s = .next s' →
    s'.outcnt.toNat = (s.bitpos.toNat + 7) / 8 ∧ busyLine s' = false) ∧
  step (presentWord 0x0300000000000000
      { State.reset with
        st := .pack, width := 1, height := 1, y := 1, npend := 6, bitpos := 30, outcnt := 3,
        trace := [.byte 0xFF, .byte 0x20, .byte 0x00] }) =
    .next { State.reset with
      width := 1, height := 1, y := 1, bitpos := 30, outcnt := 4,
      trace := [.byte 0xFF, .byte 0x20, .byte 0x00, .byte 0x00, .done] }

/-- R92: every cell of the state machine: the next value of ST and ERRCODE, and the bytes and the DONE that come out;
and the transition of reset. -/
def Obligations.StateMachineTable : Prop :=
  (∀ (s : State) (rest : List HostMove), ∃ s', step (withInput (.reset :: rest) s) = .next s' ∧ s'.st = .idle) ∧
  ∀ (s s' : State) (w : Word), step (presentWord w s) = .next s' →
    (s.st = .err → s' = s) ∧
    (s.st ≠ .err → (decode w).toOption = none → s' = { s with st := .err, errcode := .illegalCommand }) ∧
    (∀ a b, s.st = .idle → decode w = .ok (.start a b) →
      s'.st = .pack ∧ s'.errcode = s.errcode ∧ s'.width = a ∧ s'.height = b ∧ s'.trace = s.trace) ∧
    (∀ r g b, s.st = .idle → decode w = .ok (.pixel r g b) → s' = { s with st := .err, errcode := .sequenceError }) ∧
    (s.st = .idle → decode w = .ok .endFrame → s' = { s with st := .err, errcode := .sequenceError }) ∧
    (∀ a b, s.st = .pack → decode w = .ok (.start a b) → s' = { s with st := .err, errcode := .sequenceError }) ∧
    (∀ r g b, s.st = .pack → decode w = .ok (.pixel r g b) →
      (full s = true → s' = { s with st := .err, errcode := .frameOverrun }) ∧
      (full s = false → 255 < r.toNat ∨ 255 < g.toNat ∨ 255 < b.toNat →
        s' = { s with st := .err, errcode := .invalidChannelValue }) ∧
      (full s = false → r.toNat ≤ 255 → g.toNat ≤ 255 → b.toNat ≤ 255 →
        s'.st = .pack ∧ s'.errcode = s.errcode ∧ s'.bitpos = s.bitpos + 30 ∧
        ∃ bs : List Byte, s'.trace = s.trace ++ bs.map .byte ∧
          bs = bytesOfNumber (withPending s 30 (pixelGroup r g b)) (s.npend.toNat + 30) ∧
          bs.length = (if s.npend.toNat ≤ 1 then 3 else 4))) ∧
    (s.st = .pack → decode w = .ok .endFrame →
      (full s = false → s' = { s with st := .err, errcode := .frameUnderrun }) ∧
      (full s = true → s'.st = .idle ∧ s'.errcode = s.errcode ∧
        s'.trace = s.trace ++ (if s.npend = 0#3 then [] else [.byte s.acc]) ++ [.done]))

/-- R94: a frame of no area is full at once: PIXEL overruns, and END succeeds with DONE and no byte. -/
def Obligations.ZeroAreaFrameIsEmpty : Prop :=
  ∀ (s : State) (w h : Operand) (rest : List HostMove), s.st = .idle → w = 0#16 ∨ h = 0#16 →
    (∀ s' : State, exec (.start w h) s = .next s' → full s' = true) ∧
    run 2 (withInput (presentAll [.start w h, .endFrame] ++ rest) s) =
      .next { s with width := w, height := h, x := 0, y := 0, acc := 0, npend := 0, bitpos := 0, outcnt := 0,
                     trace := s.trace ++ [.done], input := rest } ∧
    ∀ r g b : Operand, ∃ s' : State,
      run 2 (withInput (presentAll [.start w h, .pixel r g b] ++ rest) s) = .next s' ∧
      s'.st = .err ∧ s'.errcode = .frameOverrun ∧ s'.trace = s.trace

/-- R18, R19: how the cursor's X and Y move, as integers: no addition overflows; PIXEL faults when Y = HEIGHT. -/
def Obligations.CursorNeverWraps : Prop :=
  (∀ (s : State) (w h : Operand), s.st = .idle →
    ∃ s', exec (.start w h) s = .next s' ∧ s'.x = 0 ∧ s'.y = 0) ∧
  (∀ (s : State) (r g b : Operand), s.st = .pack → s.y = s.height →
    exec (.pixel r g b) s = .next { s with st := .err, errcode := .frameOverrun }) ∧
  ∀ (s : State) (r g b : Operand), Inv s → s.st = .pack → full s = false → chansOk r g b = true →
    ∃ s', exec (.pixel r g b) s = .next s' ∧
      (s.x.toNat + 1 = s.width.toNat → s'.x = 0 ∧ s'.y.toNat = s.y.toNat + 1) ∧
      (s.x.toNat + 1 ≠ s.width.toNat → s'.x.toNat = s.x.toNat + 1 ∧ s'.y = s.y) ∧
      s'.x.toNat ≤ s.width.toNat ∧ s'.y.toNat ≤ s.height.toNat

/-- R21: what writes BITPOS: START clears it, a successful PIXEL adds 30 without overflow, END leaves it, and after a
successful END it is the frame's total bit length. -/
def Obligations.BitCursorIsFrameLength : Prop :=
  (∀ (s : State) (w h : Operand), s.st = .idle → ∃ s', exec (.start w h) s = .next s' ∧ s'.bitpos = 0) ∧
  (∀ (s : State) (v : Sample), (append10 v s).bitpos = s.bitpos + 10) ∧
  (∀ (s : State) (r g b : Operand), Inv s → s.st = .pack → full s = false → chansOk r g b = true →
    ∃ s', exec (.pixel r g b) s = .next s' ∧ s'.bitpos.toNat = s.bitpos.toNat + 30) ∧
  (∀ s : State, Inv s → s.st = .pack → full s = true →
    ∃ s', exec .endFrame s = .next s' ∧ s'.bitpos = s.bitpos ∧
      s'.bitpos.toNat = s.width.toNat * s.height.toNat * 30)

/-- R107 and the length law of R110: what a successful END emits by the frame's number of pixels (no byte, or one that
holds 6, 4 or 2 stream bits and zeros below them), its final OUTCNT, and the faults of an early and of a second END. -/
def Obligations.EndCornerCases : Prop :=
  (∀ s : State, Inv s → s.st = .pack → full s = true →
    ∃ (s' : State) (bs : List Byte), exec .endFrame s = .next s' ∧ s'.trace = s.trace ++ bs.map .byte ++ [.done] ∧
      bs = (if s.width.toNat * s.height.toNat % 4 = 0 then [] else [s.acc]) ∧
      s.npend.toNat = [0, 6, 4, 2].getD (s.width.toNat * s.height.toNat % 4) 0 ∧ s.acc <<< s.npend.toNat = 0 ∧
      s'.outcnt.toNat = outputLength (s.width.toNat * s.height.toNat)) ∧
  (∀ s : State, s.st = .pack → full s = false →
    exec .endFrame s = .next { s with st := .err, errcode := .frameUnderrun }) ∧
  (∀ (s : State) (rest : List HostMove), s.st = .pack → full s = true →
    ∃ s', run 2 (withInput (presentAll [.endFrame, .endFrame] ++ rest) s) = .next s' ∧
      s'.st = .err ∧ s'.errcode = .sequenceError)

/-- R46: how many bytes each command emits and what it leaves in NPEND. -/
def Obligations.BytesPerCommand : Prop :=
  (∀ (s : State) (w h : Operand), s.st = .idle →
    ∃ s', exec (.start w h) s = .next s' ∧ s'.trace = s.trace ∧ s'.npend = 0) ∧
  (∀ (s : State) (r g b : Operand), s.st = .pack → full s = false → chansOk r g b = true →
    ∀ p n q : Nat, (p, n, q) ∈ [(0, 3, 6), (6, 4, 4), (4, 4, 2), (2, 4, 0)] → s.npend.toNat = p →
      ∃ (s' : State) (bs : List Byte), exec (.pixel r g b) s = .next s' ∧ s'.trace = s.trace ++ bs.map .byte ∧
        bs.length = n ∧ s'.npend.toNat = q) ∧
  (∀ s : State, s.st = .pack → full s = true →
    ∀ p n : Nat, (p, n) ∈ [(0, 0), (2, 1), (4, 1), (6, 1)] → s.npend.toNat = p →
      ∃ (s' : State) (bs : List Byte), exec .endFrame s = .next s' ∧
        s'.trace = s.trace ++ bs.map .byte ++ [.done] ∧ bs.length = n ∧ s'.npend = 0) ∧
  (∀ (s s' : State) (w : Word), step (presentWord w s) = .next s' → s'.st = .err →
    s'.trace = s.trace ∧ s'.npend = s.npend)

/-- R109: the commands of PACK, from any state with ST = IDLE. (a) A legal frame: the bytes of PACK, one DONE, and the
registers of R32. (b) A frame whose first illegal pixel comes after `good`: the complete bytes of the stream of
`good`, the fault, every later command discarded, no DONE, the registers frozen. -/
def Obligations.FrameCommandsImplementPack : Prop :=
  (∀ (s : State) (f : Frame) (rest : List HostMove), s.st = .idle → f.legal →
    pack f.pixels = .bytes (packBytes f.pixels) ∧
    run (f.pixels.length + 2) (withInput (presentAll (expandPack f.width f.height f.pixels) ++ rest) s) =
      .next { s with
        width := f.width
        height := f.height
        x := 0
        y := if f.width = 0#16 then 0 else f.height
        bitpos := BitVec.ofNat 37 (30 * (f.width.toNat * f.height.toNat))
        outcnt := BitVec.ofNat 34 (outputLength (f.width.toNat * f.height.toNat))
        acc := 0
        npend := 0
        trace := s.trace ++ (packBytes f.pixels).map .byte ++ [.done]
        input := rest }) ∧
  (∀ (s : State) (w h : Operand) (good more : List Pixel) (bad : Pixel) (rest : List HostMove), s.st = .idle →
    (good ++ bad :: more).length = w.toNat * h.toNat → (∀ p ∈ good, pixelOk p = true) → pixelOk bad = false →
    pack (good ++ bad :: more) = .invalidChannelValue ∧
    run (w.toNat * h.toNat + 2) (withInput (presentAll (expandPack w h (good ++ bad :: more)) ++ rest) s) =
      .next { s with
        st := .err
        errcode := .invalidChannelValue
        width := w
        height := h
        x := BitVec.ofNat 16 (good.length % w.toNat)
        y := BitVec.ofNat 16 (good.length / w.toNat)
        bitpos := BitVec.ofNat 37 (30 * good.length)
        outcnt := BitVec.ofNat 34 (30 * good.length / 8)
        acc := streamByte good (30 * good.length / 8)
        npend := BitVec.ofNat 3 (30 * good.length % 8)
        trace := s.trace ++ ((packBytes good).take (30 * good.length / 8)).map .byte
        input := rest })

/-- R110: the laws of a completed frame, of the bytes `bs` that its commands emit from any state with ST = IDLE
(determinism): the length, the empty frame, the order and the channel order of the fields, the scaling, the padding. -/
def Obligations.CompletedFrameLaws : Prop :=
  ∀ f : Frame, f.legal → ∃ bs : List Byte,
    (∀ (s : State) (rest : List HostMove), s.st = .idle → ∃ s',
      run (f.pixels.length + 2) (withInput (presentAll (expandPack f.width f.height f.pixels) ++ rest) s) =
        .next s' ∧ s'.trace = s.trace ++ bs.map .byte ++ [.done] ∧ s'.outcnt.toNat = bs.length) ∧
    bs.length = (f.width.toNat * f.height.toNat * 30 + 7) / 8 ∧
    (f.width.toNat * f.height.toNat = 0 → bs = []) ∧
    (∀ (n : Nat) (p : Pixel), f.pixels[n]? = some p →
      ((bs.flatMap byteBits).drop (30 * n)).take 30 =
        sampleBits (BitVec.ofNat 10 (4 * p.r.toNat)) ++ sampleBits (BitVec.ofNat 10 (4 * p.g.toNat)) ++
          sampleBits (BitVec.ofNat 10 (4 * p.b.toNat)) ∧
      4 * p.r.toNat ≤ 1020 ∧ 4 * p.g.toNat ≤ 1020 ∧ 4 * p.b.toNat ≤ 1020) ∧
    (∀ k : Nat, f.width.toNat * f.height.toNat * 30 ≤ k → (bs.flatMap byteBits).getD k false = false)

/-- R103: a W x H frame and a (W x H) x 1 frame with the same pixels give identical bytes. -/
def Obligations.RowChangeLeavesNoTrace : Prop :=
  ∀ (s : State) (f g : Frame) (rest : List HostMove), s.st = .idle → f.legal → g.pixels = f.pixels →
    g.width.toNat = f.width.toNat * f.height.toNat → g.height = 1 →
    ∃ sf sg, run (f.pixels.length + 2) (withInput (presentAll (expandPack f.width f.height f.pixels) ++ rest) s) =
        .next sf ∧
      run (g.pixels.length + 2) (withInput (presentAll (expandPack g.width g.height g.pixels) ++ rest) s) =
        .next sg ∧ sf.trace = sg.trace

/-! The output format (20_memory.md, 30_encoding.md) -/

/-- R67: pixel N's group occupies the 30 stream bits from 30 x N, R then G then B, most significant bit first; as a
number it is r10 x 2^20 + g10 x 2^10 + b10. -/
def Obligations.PixelGroupLayout : Prop :=
  ∀ (ps : List Pixel) (n : Nat) (p : Pixel), ps[n]? = some p → pixelOk p = true →
    (∀ j, j < 10 → streamBit ps (30 * n + j) = (sampleOf p.r).getLsbD (9 - j) ∧
      streamBit ps (30 * n + 10 + j) = (sampleOf p.g).getLsbD (9 - j) ∧
      streamBit ps (30 * n + 20 + j) = (sampleOf p.b).getLsbD (9 - j)) ∧
    (List.range 30).foldl (fun a i => 2 * a + (streamBit ps (30 * n + i)).toNat) 0 = pixelGroup p.r p.g p.b

/-- R42: the output is the stream's bits followed by zeros, and their number is 0, 2, 4 or 6 by the number of pixels
mod 4. -/
def Obligations.PaddingIsTrailingZeros : Prop :=
  ∀ ps : List Pixel,
    (packBytes ps).flatMap byteBits =
      streamPrefix ps (30 * ps.length) ++ List.replicate (8 * outputLength ps.length - 30 * ps.length) false ∧
    8 * outputLength ps.length - 30 * ps.length = [0, 2, 4, 6].getD (ps.length % 4) 0

/-- R43: a field read back out of the bytes, which it spans two of, is the sample. -/
def Obligations.FieldReadsBack : Prop :=
  ∀ (ps : List Pixel) (n f : Nat) (p : Pixel), ps[n]? = some p → pixelOk p = true → f < 3 →
    (readField (packBytes ps) n f).toNat = 4 * (channelAt p f).toNat ∧
    (30 * n + 10 * f) % 8 ∈ [0, 2, 4, 6] ∧ (30 * n + 10 * f) / 8 + 1 = (30 * n + 10 * f + 9) / 8 ∧
    (30 * n + 10 * f) / 8 + 1 < (packBytes ps).length

/-- R70: the 15 bytes of four pixels, and the last byte of a frame that ends after 1, 2 or 3 pixels of its last group.
Samples are written `R i`, `G i`, `B i`. -/
def Obligations.FourPixelsFillFifteenBytes : Prop :=
  ∀ (ps : List Pixel) (q : Nat),
    let R : Nat → Sample := fun i => sampleOf (ps.getD (4 * q + i) ⟨0, 0, 0⟩).r
    let G : Nat → Sample := fun i => sampleOf (ps.getD (4 * q + i) ⟨0, 0, 0⟩).g
    let B : Nat → Sample := fun i => sampleOf (ps.getD (4 * q + i) ⟨0, 0, 0⟩).b
    let row : List Byte :=
      [(R 0).extractLsb' 2 8, (R 0).extractLsb' 0 2 ++ (G 0).extractLsb' 4 6,
        (G 0).extractLsb' 0 4 ++ (B 0).extractLsb' 6 4, (B 0).extractLsb' 0 6 ++ (R 1).extractLsb' 8 2,
        (R 1).extractLsb' 0 8, (G 1).extractLsb' 2 8, (G 1).extractLsb' 0 2 ++ (B 1).extractLsb' 4 6,
        (B 1).extractLsb' 0 4 ++ (R 2).extractLsb' 6 4, (R 2).extractLsb' 0 6 ++ (G 2).extractLsb' 8 2,
        (G 2).extractLsb' 0 8, (B 2).extractLsb' 2 8, (B 2).extractLsb' 0 2 ++ (R 3).extractLsb' 4 6,
        (R 3).extractLsb' 0 4 ++ (G 3).extractLsb' 6 4, (G 3).extractLsb' 0 6 ++ (B 3).extractLsb' 8 2,
        (B 3).extractLsb' 0 8]
    (4 * q + 4 ≤ ps.length → ((packBytes ps).drop (15 * q)).take 15 = row) ∧
    (ps.length = 4 * q + 1 → (packBytes ps).drop (15 * q) = row.take 3 ++ [(B 0).extractLsb' 0 6 ++ 0#2]) ∧
    (ps.length = 4 * q + 2 → (packBytes ps).drop (15 * q) = row.take 7 ++ [(B 1).extractLsb' 0 4 ++ 0#4]) ∧
    (ps.length = 4 * q + 3 → (packBytes ps).drop (15 * q) = row.take 11 ++ [(B 2).extractLsb' 0 2 ++ 0#6])

/-! Faults and reset (60_exceptions.md, 70_reset_and_hazards.md) -/

/-- R120: one command raises at most one fault, the first that applies in the rule's order; where none applies the
command does not end in ERR and ERRCODE is kept. -/
def Obligations.FaultPriority : Prop :=
  ∀ (s : State) (w : Word),
    let badSequence := (s.st = .pack ∧ ∃ a b, decode w = .ok (.start a b)) ∨
      (s.st = .idle ∧ ((∃ r g b, decode w = .ok (.pixel r g b)) ∨ decode w = .ok .endFrame))
    let overrun := (∃ r g b, decode w = .ok (.pixel r g b)) ∧ full s = true
    let underrun := decode w = .ok .endFrame ∧ full s = false
    let badChannel := ∃ r g b, decode w = .ok (.pixel r g b) ∧ (255 < r.toNat ∨ 255 < g.toNat ∨ 255 < b.toNat)
    (s.st = .err → step (presentWord w s) = .next s) ∧
    (s.st ≠ .err → (decode w).toOption = none →
      step (presentWord w s) = .next { s with st := .err, errcode := .illegalCommand }) ∧
    (badSequence → step (presentWord w s) = .next { s with st := .err, errcode := .sequenceError }) ∧
    (s.st = .pack → overrun → step (presentWord w s) = .next { s with st := .err, errcode := .frameOverrun }) ∧
    (s.st = .pack → underrun → step (presentWord w s) = .next { s with st := .err, errcode := .frameUnderrun }) ∧
    (s.st = .pack → ¬ overrun → badChannel →
      step (presentWord w s) = .next { s with st := .err, errcode := .invalidChannelValue }) ∧
    (s.st ≠ .err → (decode w).toOption ≠ none → ¬ badSequence → ¬ overrun → ¬ underrun → ¬ badChannel →
      ∃ s', step (presentWord w s) = .next s' ∧ s'.st ≠ .err ∧ s'.errcode = s.errcode)

/-- R121, R122: a command that ends in ERR changes ST and ERRCODE and nothing else, emits nothing and pulses no DONE;
the line ERR becomes 1 and BUSY becomes 0. -/
def Obligations.FaultsArePrecise : Prop :=
  (∀ (c : ErrCode) (s : State), raiseFault c s = { s with st := .err, errcode := c } ∧
    errLine (raiseFault c s) = true ∧ busyLine (raiseFault c s) = false) ∧
  (∀ (s s' : State) (w : Word), s.st ≠ .err → step (presentWord w s) = .next s' → s'.st = .err →
    ∃ c : ErrCode, c ≠ .none ∧ s' = { s with st := .err, errcode := c }) ∧
  (∀ (s s' : State) (ws : List Word), s.st ≠ .err →
    run ws.length (withInput (ws.map .word) s) = .next s' → s'.st = .err →
    ∃ (k : Nat) (t : State) (c : ErrCode), k < ws.length ∧ c ≠ .none ∧ t.st ≠ .err ∧
      run k (withInput (ws.map .word) s) = .next t ∧ s' = { t with st := .err, errcode := c, input := [] })

/-- R123: in ERR every word on the command port, legal or not and however many, is taken and discarded. -/
def Obligations.ErrDiscardsEveryWord : Prop :=
  ∀ (s : State) (ws : List Word) (rest : List HostMove), s.st = .err →
    run ws.length (withInput (ws.map .word ++ rest) s) = .next (withInput rest s)

/-- R15: ERRCODE is not NONE exactly when ST = ERR; every step keeps that, and in ERR no step but reset writes it. -/
def Obligations.ErrcodeHoldsFirstFault : Prop :=
  (State.reset.errcode ≠ .none ↔ State.reset.st = .err) ∧
  (∀ s s' : State, (s.errcode ≠ .none ↔ s.st = .err) → step s = .next s' → (s'.errcode ≠ .none ↔ s'.st = .err)) ∧
  (∀ (s s' : State) (w : Word), s.st = .err → step (presentWord w s) = .next s' → s'.errcode = s.errcode) ∧
  (∀ s : State, (statusPort s).errcode ≠ 6 ∧ (statusPort s).errcode ≠ 7)

/-- R133, R134 and R124: reset, from any state, gives every register its reset value and empties the trace; what was
emitted stays with the sink and nothing is added to it; the host's later moves are still to come; it is the only move
out of ERR; and the first command that can succeed after it is START. That reset comes between two commands, as a move
of the host, and how the output of earlier runs is kept are the model's choices (logs 1, 2 and 4). -/
def Obligations.ResetIsTheOnlyWayOut : Prop :=
  (∀ (s : State) (rest : List HostMove), ∃ s', step (withInput (.reset :: rest) s) = .next s' ∧
    s' = { State.reset with earlier := s'.earlier, input := rest } ∧
    statusPort s' = statusPort State.reset ∧ s'.trace = [] ∧ history s' = history s ∧ s'.input = rest) ∧
  (∀ s s' : State, s.st = .err → step s = .next s' → s'.st ≠ .err → s.input.head? = some .reset) ∧
  (∀ s s' : State, s.st = .err → s.input.head? ≠ some .reset → step s = .next s' →
    s' = { s with input := s'.input } ∧ statusPort s' = statusPort s ∧ history s' = history s) ∧
  (∀ (s s' : State) (w : Word), step (presentWord w (assertReset s)) = .next s' → s'.st ≠ .err →
    ∃ a b, decode w = .ok (.start a b))

/-- R34: the registers and lines after reset, and the empty trace; and no rule depends on the reset value of the other
eight registers, because START rewrites them from any idle state. -/
def Obligations.ResetValues : Prop :=
  statusPort State.reset = ⟨0, 0, 0, 0, 0, 0, 0, 0, 0, 0⟩ ∧ State.reset.st = .idle ∧ State.reset.errcode = .none ∧
    errLine State.reset = false ∧ busyLine State.reset = false ∧ State.reset.trace = [] ∧
    ∀ (s : State) (w h : Operand), s.st = .idle → s.errcode = .none →
      exec (.start w h) s =
        exec (.start w h) { State.reset with trace := s.trace, earlier := s.earlier, input := s.input }

/-- R26, D23: the output lines as functions of ST; any fault sets ERR, and ERR is sticky. R27: the status port shows the
ten registers, each under its own name, with the codes of R14 and R113 for ST and ERRCODE. -/
def Obligations.LinesFollowState : Prop :=
  (∀ s : State,
    (statusPort s).st = (match s.st with | .idle => 0 | .pack => 1 | .err => 3) ∧
    (statusPort s).errcode =
      (match s.errcode with
        | .none => 0 | .invalidChannelValue => 1 | .illegalCommand => 2 | .sequenceError => 3
        | .frameOverrun => 4 | .frameUnderrun => 5) ∧
    (statusPort s).width = s.width ∧ (statusPort s).height = s.height ∧ (statusPort s).x = s.x ∧
    (statusPort s).y = s.y ∧ (statusPort s).bitpos = s.bitpos ∧ (statusPort s).outcnt = s.outcnt ∧
    (statusPort s).acc = s.acc ∧ (statusPort s).npend = s.npend) ∧
  (∀ s : State, errLine s = true ↔ (statusPort s).st = 3) ∧
  (∀ s : State, busyLine s = true ↔ (statusPort s).st = 1) ∧
  (∀ s : State, errLine s = (statusPort s).st.getLsbD 1) ∧
  (∀ s : State, busyLine s = ((statusPort s).st.getLsbD 0 && !(statusPort s).st.getLsbD 1)) ∧
  errLine State.reset = false ∧ busyLine State.reset = false ∧ State.reset.trace = [] ∧
  (∀ (c : ErrCode) (s : State), errLine (raiseFault c s) = true ∧ busyLine (raiseFault c s) = false) ∧
  (∀ (s s' : State), errLine s = true → s.input.head? ≠ some .reset → step s = .next s' → errLine s' = true)

/-! The whole machine -/

/-- R28: a step adds a DONE event exactly when it runs a successful END, one, and after every byte of the frame; no
step takes an item back. -/
def Obligations.DoneMarksCompletedFrames : Prop :=
  ∀ s s' : State, step s = .next s' → ∃ (bs : List Byte) (d : Bool),
    history s' = history s ++ bs.map .byte ++ (if d then [.done] else []) ∧
    (d = true ↔ s.input.head? = some (.word (encode .endFrame)) ∧ s.st = .pack ∧ full s = true)

/-- R38, R22: OUTCNT counts the bytes: a command that emits adds their number, and only START clears it, emitting
nothing. -/
def Obligations.OutcntCountsEmittedBytes : Prop :=
  ∀ (s s' : State) (w : Word), step (presentWord w s) = .next s' → ∃ (bs : List Byte) (tail : List OutItem),
    s'.trace = s.trace ++ bs.map .byte ++ tail ∧ (tail = [] ∨ tail = [.done]) ∧
    (s'.outcnt = s.outcnt + BitVec.ofNat 34 bs.length ∨
      (bs = [] ∧ tail = [] ∧ s'.outcnt = 0 ∧ s.st = .idle ∧ ∃ a b, decode w = .ok (.start a b)))

/-- R31, R32 (and R33 for ST = ERR): the invariant of the machine is kept by every step, from every state that has it. -/
def Obligations.StepKeepsInvariant : Prop :=
  ∀ s s' : State, Inv s → step s = .next s' → Inv s'

/-- The invariant holds right after reset. That no earlier run stands in State.reset is the model's choice (DESIGN CHOICE,
log 2). -/
def Obligations.ResetHasInvariant : Prop := Inv State.reset ∧ EarlierClosed State.reset

/-- Every run before the last reset left completed frames and at most one that did not complete; every step keeps that.
That the output of earlier runs is kept apart, run by run, is the model's choice (DESIGN CHOICE, log 2). -/
def Obligations.EarlierRunsStayClosed : Prop :=
  ∀ s s' : State, Inv s → EarlierClosed s → step s = .next s' → EarlierClosed s'

/-- R138, C4: every frame that a conforming sink accepts is the output of PACK for a legal frame. How the sink learns of
a reset is the model's reading (DEDUCED, log 18). -/
def Obligations.SinkAcceptsOnlyPackedFrames : Prop :=
  ∀ s : State, Inv s → EarlierClosed s → ∀ bs ∈ acceptedFrames s, ∃ f : Frame, f.legal ∧ bs = packBytes f.pixels

/-- R144, R138, R109 together: the commands of a legal frame, from an idle state with the invariant, leave a good end
state, and a conforming sink then holds exactly one frame more, the output of PACK. A frame with an illegal channel
leaves ST = ERR, a faulted end state, and the sink's frames are as before. How the sink reads the trace is the model's reading (DEDUCED, log 18). -/
def Obligations.LegalFrameReachesSink : Prop :=
  (∀ (s : State) (f : Frame) (rest : List HostMove), Inv s → s.st = .idle → f.legal →
    ∃ s', run (f.pixels.length + 2) (withInput (presentAll (expandPack f.width f.height f.pixels) ++ rest) s) =
      .next s' ∧ Inv s' ∧ endState s' = .good ∧ acceptedFrames s' = acceptedFrames s ++ [packBytes f.pixels]) ∧
  (∀ (s : State) (f : Frame) (rest : List HostMove), Inv s → s.st = .idle →
    f.pixels.length = f.width.toNat * f.height.toNat → pack f.pixels = .invalidChannelValue →
    ∃ s', run (f.pixels.length + 2) (withInput (presentAll (expandPack f.width f.height f.pixels) ++ rest) s) =
      .next s' ∧ Inv s' ∧ s'.st = .err ∧ endState s' = .faulted ∧
         acceptedFrames s' = acceptedFrames s)

/-- R144: while a frame is open, a step ends it well exactly when it executes END with the frame full, badly exactly when
it ends in ERR or is a reset, and otherwise the frame stays open; a frame that has ended well has its DONE last in the
trace and ST = IDLE, and ST = ERR is a bad end. A run is over exactly when no word of it is still to come, and running
as many steps as it has words comes there; its end state is good when ST = IDLE and ERRCODE = 0, an unfinished frame
when ST = PACK, and faulted in ERR. How a step is judged, and that a reset to come ends the command list, are the model's
reading (DEDUCED, log 19). -/
def Obligations.EndOfFrameAndRun : Prop :=
  (∀ s s' : State, s.st = .pack → step s = .next s' →
    (frameEnd s s' = some .well ↔ s.input.head? = some (.word (encode .endFrame)) ∧ full s = true) ∧
    (frameEnd s s' = some .badly ↔ s'.st = .err ∨ s.input.head? = some .reset) ∧
    (frameEnd s s' = none ↔ s'.st = .pack)) ∧
  (∀ s s' : State, frameEnd s s' = some .well → s'.st = .idle ∧ s'.trace.getLast? = some .done) ∧
  (∀ s s' : State, s'.st = .err → frameEnd s s' = some .badly) ∧
  (∀ (s : State) (ws : List Word) (rest : List HostMove), (∀ w, rest.head? ≠ some (.word w)) →
    ∃ s', run ws.length (withInput (ws.map .word ++ rest) s) = .next s' ∧ s'.input = rest ∧
      s'.earlier = s.earlier ∧ runEnd s' = some (endState s')) ∧
  (∀ s : State, runEnd s = none ↔ ∃ w, s.input.head? = some (.word w)) ∧
  (∀ s : State, endState s = .good ↔ s.st = .idle ∧ s.errcode = .none) ∧
  (∀ s : State, endState s = .unfinished ↔ s.st = .pack) ∧
  (∀ s : State, Inv s → (endState s = .faulted ↔ s.st = .err))

/-- R144, R138: while a frame is open, a step that ends it well gives a conforming sink one frame more, the output of
PACK for a legal frame of the dimensions in WIDTH and HEIGHT, and any other step, one that ends it badly among them,
leaves the sink's frames as they were. The sink and the verdict are the model's readings (DEDUCED, logs 18 and 19). -/
def Obligations.FrameEndDecidesAcceptance : Prop :=
  ∀ s s' : State, Inv s → s.st = .pack → step s = .next s' →
    (frameEnd s s' = some .well → ∃ f : Frame, f.legal ∧ f.width = s.width ∧ f.height = s.height ∧
      acceptedFrames s' = acceptedFrames s ++ [packBytes f.pixels]) ∧
    (frameEnd s s' ≠ some .well → acceptedFrames s' = acceptedFrames s)

/-- R39: every move of the host is taken, one at a time and in order, in every state; no step stops the machine. -/
def Obligations.EveryMoveIsTaken : Prop :=
  ∀ s : State, ∃ s', step s = .next s' ∧ s'.input = s.input.tail

/-- Without a move of the host nothing changes. A step that waits is the model's choice (DESIGN CHOICE, log 3). -/
def Obligations.BlockWaitsForHost : Prop :=
  ∀ s : State, s.input = [] → ∀ n : Nat, run n s = .next s

/-- A step runs the decoded command: when the next word decodes to `i`, the step is `exec i`, and the word is gone; the
same for the word that `withFetchWord` places, which `decodeTableWord` reads as the same command. That `withFetchWord` is
one push of the host is the model's choice (DESIGN CHOICE, log 10), and so is the numbering of a table word (DESIGN
CHOICE, log 11). -/
def Obligations.StepRunsDecodedCommand : Prop :=
  (∀ (s : State) (w : Word) (rest : List HostMove) (i : Instr), s.input = .word w :: rest → decode w = .ok i →
    step s = exec i (withInput rest s)) ∧
  (∀ (s : State) (w : Word) (i : Instr), decode w = .ok i →
    step (s.withFetchWord 64 w.toNat) = exec i s ∧ decodeTableWord 64 w.toNat = some i)
end

