-- ==== Sys2Proof/Laws/Endings.lean ====
section
/-! SUPPORT. What each verdict on a frame or a run says (R144). Proofs cite these instead of unfolding the verdicts. -/

namespace Sys2Proof.Machine

theorem resetCutsFrame_iff (s : State) : resetCutsFrame s = true ↔ s.st = .pack ∧ s.input.head? = some .reset := by
  simp [resetCutsFrame]

theorem frameEnd_badly_iff (s s' : State) :
    frameEnd s s' = some .badly ↔ s'.st = .err ∨ (s.st = .pack ∧ s.input.head? = some .reset) := by
  simp only [frameEnd, resetCutsFrame_iff]
  split_ifs <;> simp_all

theorem frameEnd_well_iff (s s' : State) :
    frameEnd s s' = some .well ↔
      s'.st = .idle ∧ s'.trace.getLast? = some .done ∧ ¬ (s.st = .pack ∧ s.input.head? = some .reset) := by
  simp only [frameEnd, resetCutsFrame_iff]
  split_ifs with h
  · rcases h with h | h <;> simp [h]
  · simp_all
  · simp_all

theorem endState_good_iff (s : State) : endState s = .good ↔ s.st = .idle ∧ s.errcode = .none := by
  unfold endState
  cases s.st <;> simp

theorem endState_unfinished_iff (s : State) : endState s = .unfinished ↔ s.st = .pack := by
  unfold endState
  cases s.st <;> simp
  split_ifs <;> simp

theorem runEnd_of_no_word {s : State} (h : ∀ w, s.input.head? ≠ some (.word w)) : runEnd s = some (endState s) := by
  unfold runEnd
  split <;> simp_all

end Sys2Proof.Machine
end

