-- ==== Sys2Proof/Laws/State.lean ====
section
/-! SUPPORT. One lemma per field per named update of the state, so that no proof unfolds a record update. -/

namespace Sys2Proof.Machine

/-- Two states with the same fields are the same. -/
theorem State.ext_fields {s t : State} (st : s.st = t.st) (errcode : s.errcode = t.errcode) (width : s.width = t.width)
    (height : s.height = t.height) (x : s.x = t.x) (y : s.y = t.y) (bitpos : s.bitpos = t.bitpos)
    (outcnt : s.outcnt = t.outcnt) (acc : s.acc = t.acc) (npend : s.npend = t.npend) (trace : s.trace = t.trace)
    (earlier : s.earlier = t.earlier) (input : s.input = t.input) : s = t := by
  cases s; cases t; simp_all

/-! `emit` (R10) -/

@[simp] theorem emit_st (b : Byte) (s : State) : (emit b s).st = s.st := rfl
@[simp] theorem emit_errcode (b : Byte) (s : State) : (emit b s).errcode = s.errcode := rfl
@[simp] theorem emit_width (b : Byte) (s : State) : (emit b s).width = s.width := rfl
@[simp] theorem emit_height (b : Byte) (s : State) : (emit b s).height = s.height := rfl
@[simp] theorem emit_x (b : Byte) (s : State) : (emit b s).x = s.x := rfl
@[simp] theorem emit_y (b : Byte) (s : State) : (emit b s).y = s.y := rfl
@[simp] theorem emit_bitpos (b : Byte) (s : State) : (emit b s).bitpos = s.bitpos := rfl
@[simp] theorem emit_outcnt (b : Byte) (s : State) : (emit b s).outcnt = s.outcnt + 1 := rfl
@[simp] theorem emit_acc (b : Byte) (s : State) : (emit b s).acc = s.acc := rfl
@[simp] theorem emit_npend (b : Byte) (s : State) : (emit b s).npend = s.npend := rfl
@[simp] theorem emit_trace (b : Byte) (s : State) : (emit b s).trace = s.trace ++ [.byte b] := rfl
@[simp] theorem emit_earlier (b : Byte) (s : State) : (emit b s).earlier = s.earlier := rfl
@[simp] theorem emit_input (b : Byte) (s : State) : (emit b s).input = s.input := rfl

/-! `pulseDone` (R28) -/

@[simp] theorem pulseDone_st (s : State) : (pulseDone s).st = s.st := rfl
@[simp] theorem pulseDone_errcode (s : State) : (pulseDone s).errcode = s.errcode := rfl
@[simp] theorem pulseDone_width (s : State) : (pulseDone s).width = s.width := rfl
@[simp] theorem pulseDone_height (s : State) : (pulseDone s).height = s.height := rfl
@[simp] theorem pulseDone_x (s : State) : (pulseDone s).x = s.x := rfl
@[simp] theorem pulseDone_y (s : State) : (pulseDone s).y = s.y := rfl
@[simp] theorem pulseDone_bitpos (s : State) : (pulseDone s).bitpos = s.bitpos := rfl
@[simp] theorem pulseDone_outcnt (s : State) : (pulseDone s).outcnt = s.outcnt := rfl
@[simp] theorem pulseDone_acc (s : State) : (pulseDone s).acc = s.acc := rfl
@[simp] theorem pulseDone_npend (s : State) : (pulseDone s).npend = s.npend := rfl
@[simp] theorem pulseDone_trace (s : State) : (pulseDone s).trace = s.trace ++ [.done] := rfl
@[simp] theorem pulseDone_earlier (s : State) : (pulseDone s).earlier = s.earlier := rfl
@[simp] theorem pulseDone_input (s : State) : (pulseDone s).input = s.input := rfl

/-! `clear` (R87) -/

@[simp] theorem clear_st (s : State) : (clear s).st = s.st := rfl
@[simp] theorem clear_errcode (s : State) : (clear s).errcode = s.errcode := rfl
@[simp] theorem clear_width (s : State) : (clear s).width = s.width := rfl
@[simp] theorem clear_height (s : State) : (clear s).height = s.height := rfl
@[simp] theorem clear_x (s : State) : (clear s).x = s.x := rfl
@[simp] theorem clear_y (s : State) : (clear s).y = s.y := rfl
@[simp] theorem clear_bitpos (s : State) : (clear s).bitpos = 0 := rfl
@[simp] theorem clear_outcnt (s : State) : (clear s).outcnt = 0 := rfl
@[simp] theorem clear_acc (s : State) : (clear s).acc = 0 := rfl
@[simp] theorem clear_npend (s : State) : (clear s).npend = 0 := rfl
@[simp] theorem clear_trace (s : State) : (clear s).trace = s.trace := rfl
@[simp] theorem clear_earlier (s : State) : (clear s).earlier = s.earlier := rfl
@[simp] theorem clear_input (s : State) : (clear s).input = s.input := rfl

/-! `setPending`, `advanceBitpos` (R80, R85) -/

@[simp] theorem setPending_st (a : Byte) (n : Nat) (s : State) : (setPending a n s).st = s.st := rfl
@[simp] theorem setPending_errcode (a : Byte) (n : Nat) (s : State) : (setPending a n s).errcode = s.errcode := rfl
@[simp] theorem setPending_width (a : Byte) (n : Nat) (s : State) : (setPending a n s).width = s.width := rfl
@[simp] theorem setPending_height (a : Byte) (n : Nat) (s : State) : (setPending a n s).height = s.height := rfl
@[simp] theorem setPending_x (a : Byte) (n : Nat) (s : State) : (setPending a n s).x = s.x := rfl
@[simp] theorem setPending_y (a : Byte) (n : Nat) (s : State) : (setPending a n s).y = s.y := rfl
@[simp] theorem setPending_bitpos (a : Byte) (n : Nat) (s : State) : (setPending a n s).bitpos = s.bitpos := rfl
@[simp] theorem setPending_outcnt (a : Byte) (n : Nat) (s : State) : (setPending a n s).outcnt = s.outcnt := rfl
@[simp] theorem setPending_acc (a : Byte) (n : Nat) (s : State) : (setPending a n s).acc = a := rfl
@[simp] theorem setPending_npend (a : Byte) (n : Nat) (s : State) :
    (setPending a n s).npend = BitVec.ofNat 3 n := rfl
@[simp] theorem setPending_trace (a : Byte) (n : Nat) (s : State) : (setPending a n s).trace = s.trace := rfl
@[simp] theorem setPending_earlier (a : Byte) (n : Nat) (s : State) : (setPending a n s).earlier = s.earlier := rfl
@[simp] theorem setPending_input (a : Byte) (n : Nat) (s : State) : (setPending a n s).input = s.input := rfl
@[simp] theorem advanceBitpos_st (s : State) : (advanceBitpos s).st = s.st := rfl
@[simp] theorem advanceBitpos_errcode (s : State) : (advanceBitpos s).errcode = s.errcode := rfl
@[simp] theorem advanceBitpos_width (s : State) : (advanceBitpos s).width = s.width := rfl
@[simp] theorem advanceBitpos_height (s : State) : (advanceBitpos s).height = s.height := rfl
@[simp] theorem advanceBitpos_x (s : State) : (advanceBitpos s).x = s.x := rfl
@[simp] theorem advanceBitpos_y (s : State) : (advanceBitpos s).y = s.y := rfl
@[simp] theorem advanceBitpos_bitpos (s : State) : (advanceBitpos s).bitpos = s.bitpos + 10 := rfl
@[simp] theorem advanceBitpos_outcnt (s : State) : (advanceBitpos s).outcnt = s.outcnt := rfl
@[simp] theorem advanceBitpos_acc (s : State) : (advanceBitpos s).acc = s.acc := rfl
@[simp] theorem advanceBitpos_npend (s : State) : (advanceBitpos s).npend = s.npend := rfl
@[simp] theorem advanceBitpos_trace (s : State) : (advanceBitpos s).trace = s.trace := rfl
@[simp] theorem advanceBitpos_earlier (s : State) : (advanceBitpos s).earlier = s.earlier := rfl
@[simp] theorem advanceBitpos_input (s : State) : (advanceBitpos s).input = s.input := rfl

/-! `openFrame` (R93) -/

@[simp] theorem openFrame_st (w h : Operand) (s : State) : (openFrame w h s).st = .pack := rfl
@[simp] theorem openFrame_errcode (w h : Operand) (s : State) : (openFrame w h s).errcode = s.errcode := rfl
@[simp] theorem openFrame_width (w h : Operand) (s : State) : (openFrame w h s).width = w := rfl
@[simp] theorem openFrame_height (w h : Operand) (s : State) : (openFrame w h s).height = h := rfl
@[simp] theorem openFrame_x (w h : Operand) (s : State) : (openFrame w h s).x = 0 := rfl
@[simp] theorem openFrame_y (w h : Operand) (s : State) : (openFrame w h s).y = 0 := rfl
@[simp] theorem openFrame_bitpos (w h : Operand) (s : State) : (openFrame w h s).bitpos = 0 := rfl
@[simp] theorem openFrame_outcnt (w h : Operand) (s : State) : (openFrame w h s).outcnt = 0 := rfl
@[simp] theorem openFrame_acc (w h : Operand) (s : State) : (openFrame w h s).acc = 0 := rfl
@[simp] theorem openFrame_npend (w h : Operand) (s : State) : (openFrame w h s).npend = 0 := rfl
@[simp] theorem openFrame_trace (w h : Operand) (s : State) : (openFrame w h s).trace = s.trace := rfl
@[simp] theorem openFrame_earlier (w h : Operand) (s : State) : (openFrame w h s).earlier = s.earlier := rfl
@[simp] theorem openFrame_input (w h : Operand) (s : State) : (openFrame w h s).input = s.input := rfl

/-! `closeFrame` (R106) -/

@[simp] theorem closeFrame_st (s : State) : (closeFrame s).st = .idle := rfl
@[simp] theorem closeFrame_errcode (s : State) : (closeFrame s).errcode = s.errcode := rfl
@[simp] theorem closeFrame_width (s : State) : (closeFrame s).width = s.width := rfl
@[simp] theorem closeFrame_height (s : State) : (closeFrame s).height = s.height := rfl
@[simp] theorem closeFrame_x (s : State) : (closeFrame s).x = s.x := rfl
@[simp] theorem closeFrame_y (s : State) : (closeFrame s).y = s.y := rfl
@[simp] theorem closeFrame_bitpos (s : State) : (closeFrame s).bitpos = s.bitpos := rfl
@[simp] theorem closeFrame_outcnt (s : State) : (closeFrame s).outcnt = s.outcnt := rfl
@[simp] theorem closeFrame_acc (s : State) : (closeFrame s).acc = s.acc := rfl
@[simp] theorem closeFrame_npend (s : State) : (closeFrame s).npend = s.npend := rfl
@[simp] theorem closeFrame_trace (s : State) : (closeFrame s).trace = s.trace := rfl
@[simp] theorem closeFrame_earlier (s : State) : (closeFrame s).earlier = s.earlier := rfl
@[simp] theorem closeFrame_input (s : State) : (closeFrame s).input = s.input := rfl

/-! `withInput` -/

@[simp] theorem withInput_st (moves : List HostMove) (s : State) : (withInput moves s).st = s.st := rfl
@[simp] theorem withInput_errcode (moves : List HostMove) (s : State) :
    (withInput moves s).errcode = s.errcode := rfl
@[simp] theorem withInput_width (moves : List HostMove) (s : State) : (withInput moves s).width = s.width := rfl
@[simp] theorem withInput_height (moves : List HostMove) (s : State) : (withInput moves s).height = s.height := rfl
@[simp] theorem withInput_x (moves : List HostMove) (s : State) : (withInput moves s).x = s.x := rfl
@[simp] theorem withInput_y (moves : List HostMove) (s : State) : (withInput moves s).y = s.y := rfl
@[simp] theorem withInput_bitpos (moves : List HostMove) (s : State) : (withInput moves s).bitpos = s.bitpos := rfl
@[simp] theorem withInput_outcnt (moves : List HostMove) (s : State) : (withInput moves s).outcnt = s.outcnt := rfl
@[simp] theorem withInput_acc (moves : List HostMove) (s : State) : (withInput moves s).acc = s.acc := rfl
@[simp] theorem withInput_npend (moves : List HostMove) (s : State) : (withInput moves s).npend = s.npend := rfl
@[simp] theorem withInput_trace (moves : List HostMove) (s : State) : (withInput moves s).trace = s.trace := rfl
@[simp] theorem withInput_earlier (moves : List HostMove) (s : State) :
    (withInput moves s).earlier = s.earlier := rfl
@[simp] theorem withInput_input (moves : List HostMove) (s : State) : (withInput moves s).input = moves := rfl

/-! `raiseFault` (R121) -/

@[simp] theorem raiseFault_st (c : ErrCode) (s : State) : (raiseFault c s).st = .err := rfl
@[simp] theorem raiseFault_errcode (c : ErrCode) (s : State) : (raiseFault c s).errcode = c := rfl
@[simp] theorem raiseFault_width (c : ErrCode) (s : State) : (raiseFault c s).width = s.width := rfl
@[simp] theorem raiseFault_height (c : ErrCode) (s : State) : (raiseFault c s).height = s.height := rfl
@[simp] theorem raiseFault_x (c : ErrCode) (s : State) : (raiseFault c s).x = s.x := rfl
@[simp] theorem raiseFault_y (c : ErrCode) (s : State) : (raiseFault c s).y = s.y := rfl
@[simp] theorem raiseFault_bitpos (c : ErrCode) (s : State) : (raiseFault c s).bitpos = s.bitpos := rfl
@[simp] theorem raiseFault_outcnt (c : ErrCode) (s : State) : (raiseFault c s).outcnt = s.outcnt := rfl
@[simp] theorem raiseFault_acc (c : ErrCode) (s : State) : (raiseFault c s).acc = s.acc := rfl
@[simp] theorem raiseFault_npend (c : ErrCode) (s : State) : (raiseFault c s).npend = s.npend := rfl
@[simp] theorem raiseFault_trace (c : ErrCode) (s : State) : (raiseFault c s).trace = s.trace := rfl
@[simp] theorem raiseFault_earlier (c : ErrCode) (s : State) : (raiseFault c s).earlier = s.earlier := rfl
@[simp] theorem raiseFault_input (c : ErrCode) (s : State) : (raiseFault c s).input = s.input := rfl

/-! `assertReset` (R133, R134) -/

@[simp] theorem assertReset_st (s : State) : (assertReset s).st = .idle := rfl
@[simp] theorem assertReset_errcode (s : State) : (assertReset s).errcode = .none := rfl
@[simp] theorem assertReset_width (s : State) : (assertReset s).width = 0 := rfl
@[simp] theorem assertReset_height (s : State) : (assertReset s).height = 0 := rfl
@[simp] theorem assertReset_x (s : State) : (assertReset s).x = 0 := rfl
@[simp] theorem assertReset_y (s : State) : (assertReset s).y = 0 := rfl
@[simp] theorem assertReset_bitpos (s : State) : (assertReset s).bitpos = 0 := rfl
@[simp] theorem assertReset_outcnt (s : State) : (assertReset s).outcnt = 0 := rfl
@[simp] theorem assertReset_acc (s : State) : (assertReset s).acc = 0 := rfl
@[simp] theorem assertReset_npend (s : State) : (assertReset s).npend = 0 := rfl
@[simp] theorem assertReset_trace (s : State) : (assertReset s).trace = [] := rfl
@[simp] theorem assertReset_earlier (s : State) : (assertReset s).earlier = s.earlier ++ [s.trace] := rfl
@[simp] theorem assertReset_input (s : State) : (assertReset s).input = s.input := rfl

/-! `presentWord` -/

@[simp] theorem presentWord_st (w : Word) (s : State) : (presentWord w s).st = s.st := rfl
@[simp] theorem presentWord_errcode (w : Word) (s : State) : (presentWord w s).errcode = s.errcode := rfl
@[simp] theorem presentWord_width (w : Word) (s : State) : (presentWord w s).width = s.width := rfl
@[simp] theorem presentWord_height (w : Word) (s : State) : (presentWord w s).height = s.height := rfl
@[simp] theorem presentWord_x (w : Word) (s : State) : (presentWord w s).x = s.x := rfl
@[simp] theorem presentWord_y (w : Word) (s : State) : (presentWord w s).y = s.y := rfl
@[simp] theorem presentWord_bitpos (w : Word) (s : State) : (presentWord w s).bitpos = s.bitpos := rfl
@[simp] theorem presentWord_outcnt (w : Word) (s : State) : (presentWord w s).outcnt = s.outcnt := rfl
@[simp] theorem presentWord_acc (w : Word) (s : State) : (presentWord w s).acc = s.acc := rfl
@[simp] theorem presentWord_npend (w : Word) (s : State) : (presentWord w s).npend = s.npend := rfl
@[simp] theorem presentWord_trace (w : Word) (s : State) : (presentWord w s).trace = s.trace := rfl
@[simp] theorem presentWord_earlier (w : Word) (s : State) : (presentWord w s).earlier = s.earlier := rfl
@[simp] theorem presentWord_input (w : Word) (s : State) : (presentWord w s).input = .word w :: s.input := rfl

/-! `padFlush` (R85): ACC and NPEND are cleared, only OUT and OUTCNT depend on NPEND -/

@[simp] theorem padFlush_st (s : State) : (padFlush s).st = s.st := by simp only [padFlush]; split <;> rfl
@[simp] theorem padFlush_errcode (s : State) : (padFlush s).errcode = s.errcode := by
  simp only [padFlush]; split <;> rfl
@[simp] theorem padFlush_width (s : State) : (padFlush s).width = s.width := by
  simp only [padFlush]; split <;> rfl
@[simp] theorem padFlush_height (s : State) : (padFlush s).height = s.height := by
  simp only [padFlush]; split <;> rfl
@[simp] theorem padFlush_x (s : State) : (padFlush s).x = s.x := by simp only [padFlush]; split <;> rfl
@[simp] theorem padFlush_y (s : State) : (padFlush s).y = s.y := by simp only [padFlush]; split <;> rfl
@[simp] theorem padFlush_bitpos (s : State) : (padFlush s).bitpos = s.bitpos := by
  simp only [padFlush]; split <;> rfl
@[simp] theorem padFlush_outcnt (s : State) :
    (padFlush s).outcnt = if s.npend = 0#3 then s.outcnt else s.outcnt + 1 := by
  simp only [padFlush, ne_eq, ite_not]; split <;> rfl
@[simp] theorem padFlush_acc (s : State) : (padFlush s).acc = 0 := rfl
@[simp] theorem padFlush_npend (s : State) : (padFlush s).npend = 0 := rfl
@[simp] theorem padFlush_trace (s : State) :
    (padFlush s).trace = if s.npend = 0#3 then s.trace else s.trace ++ [.byte s.acc] := by
  simp only [padFlush, ne_eq, ite_not]; split <;> rfl
@[simp] theorem padFlush_earlier (s : State) : (padFlush s).earlier = s.earlier := by
  simp only [padFlush]; split <;> rfl
@[simp] theorem padFlush_input (s : State) : (padFlush s).input = s.input := by
  simp only [padFlush]; split <;> rfl

/-! `advanceCursor` (R102): X and Y only -/

@[simp] theorem advanceCursor_st (s : State) : (advanceCursor s).st = s.st := by
  simp only [advanceCursor]; split <;> rfl
@[simp] theorem advanceCursor_errcode (s : State) : (advanceCursor s).errcode = s.errcode := by
  simp only [advanceCursor]; split <;> rfl
@[simp] theorem advanceCursor_width (s : State) : (advanceCursor s).width = s.width := by
  simp only [advanceCursor]; split <;> rfl
@[simp] theorem advanceCursor_height (s : State) : (advanceCursor s).height = s.height := by
  simp only [advanceCursor]; split <;> rfl
@[simp] theorem advanceCursor_x (s : State) :
    (advanceCursor s).x = if s.x + 1 = s.width then 0 else s.x + 1 := by
  simp only [advanceCursor]; split <;> rfl
@[simp] theorem advanceCursor_y (s : State) :
    (advanceCursor s).y = if s.x + 1 = s.width then s.y + 1 else s.y := by
  simp only [advanceCursor]; split <;> rfl
@[simp] theorem advanceCursor_bitpos (s : State) : (advanceCursor s).bitpos = s.bitpos := by
  simp only [advanceCursor]; split <;> rfl
@[simp] theorem advanceCursor_outcnt (s : State) : (advanceCursor s).outcnt = s.outcnt := by
  simp only [advanceCursor]; split <;> rfl
@[simp] theorem advanceCursor_acc (s : State) : (advanceCursor s).acc = s.acc := by
  simp only [advanceCursor]; split <;> rfl
@[simp] theorem advanceCursor_npend (s : State) : (advanceCursor s).npend = s.npend := by
  simp only [advanceCursor]; split <;> rfl
@[simp] theorem advanceCursor_trace (s : State) : (advanceCursor s).trace = s.trace := by
  simp only [advanceCursor]; split <;> rfl
@[simp] theorem advanceCursor_earlier (s : State) : (advanceCursor s).earlier = s.earlier := by
  simp only [advanceCursor]; split <;> rfl
@[simp] theorem advanceCursor_input (s : State) : (advanceCursor s).input = s.input := by
  simp only [advanceCursor]; split <;> rfl

/-! `append10` (R80): the fields it leaves, and BITPOS -/

@[simp] theorem append10_st (v : Sample) (s : State) : (append10 v s).st = s.st := by
  simp only [append10]; split <;> rfl
@[simp] theorem append10_errcode (v : Sample) (s : State) : (append10 v s).errcode = s.errcode := by
  simp only [append10]; split <;> rfl
@[simp] theorem append10_width (v : Sample) (s : State) : (append10 v s).width = s.width := by
  simp only [append10]; split <;> rfl
@[simp] theorem append10_height (v : Sample) (s : State) : (append10 v s).height = s.height := by
  simp only [append10]; split <;> rfl
@[simp] theorem append10_x (v : Sample) (s : State) : (append10 v s).x = s.x := by
  simp only [append10]; split <;> rfl
@[simp] theorem append10_y (v : Sample) (s : State) : (append10 v s).y = s.y := by
  simp only [append10]; split <;> rfl
@[simp] theorem append10_bitpos (v : Sample) (s : State) : (append10 v s).bitpos = s.bitpos + 10 := by
  simp only [append10]; split <;> rfl
@[simp] theorem append10_earlier (v : Sample) (s : State) : (append10 v s).earlier = s.earlier := by
  simp only [append10]; split <;> rfl
@[simp] theorem append10_input (v : Sample) (s : State) : (append10 v s).input = s.input := by
  simp only [append10]; split <;> rfl

end Sys2Proof.Machine
end

