-- ==== Sys2Proof/Laws/Ops.lean ====
section
/-! SUPPORT. For each shared operation and each meaning, one lemma that says once everything it can do. Proofs cite
these instead of unfolding the operation. -/

namespace Sys2Proof.Machine

/-! The operands -/

theorem chanOk_iff (a : Operand) : chanOk a = true ↔ a.toNat ≤ 255 :=
  decide_eq_true_iff

theorem chansOk_iff (r g b : Operand) :
    chansOk r g b = true ↔ r.toNat ≤ 255 ∧ g.toNat ≤ 255 ∧ b.toNat ≤ 255 := by
  simp [chansOk, chanOk_iff, and_assoc]

/-- The scaler is the shift of R7 (R73, R75). -/
theorem scale_eq_shift (c : Channel) : scale c = c.setWidth 10 <<< Config.scaleShift := by
  revert c; decide

/-- The sample of a legal operand is four times the operand (R73, R74). -/
theorem sampleOf_toNat {a : Operand} (h : chanOk a = true) : (sampleOf a).toNat = 4 * a.toNat := by
  have hs : ∀ c : Channel, (scale c).toNat = 4 * c.toNat := by decide
  have ha := (chanOk_iff a).1 h
  simp [sampleOf, channelOf, hs]
  omega

theorem full_iff (s : State) : full s = true ↔ s.width = 0#16 ∨ s.y = s.height := by
  simp [full]

theorem full_eq_false_iff (s : State) : full s = false ↔ s.width ≠ 0#16 ∧ s.y ≠ s.height := by
  simp [full]

/-! Discarding (R123) -/

@[simp] theorem discardCommand_eq (s : State) : discardCommand s = s := rfl

/-! The host's moves still to come change nothing but themselves -/

@[simp] theorem withInput_withInput (r r' : List HostMove) (s : State) :
    withInput r (withInput r' s) = withInput r s := rfl

@[simp] theorem withInput_self (s : State) : withInput s.input s = s := rfl

@[simp] theorem full_withInput (r : List HostMove) (s : State) : full (withInput r s) = full s := rfl

@[simp] theorem statusPort_withInput (r : List HostMove) (s : State) : statusPort (withInput r s) = statusPort s := rfl

theorem raiseFault_withInput (c : ErrCode) (r : List HostMove) (s : State) :
    raiseFault c (withInput r s) = withInput r (raiseFault c s) := rfl

theorem openFrame_withInput (w h : Operand) (r : List HostMove) (s : State) :
    openFrame w h (withInput r s) = withInput r (openFrame w h s) := rfl

theorem advanceCursor_withInput (r : List HostMove) (s : State) :
    advanceCursor (withInput r s) = withInput r (advanceCursor s) := by
  unfold advanceCursor
  by_cases h : s.x + 1 = s.width
  · rw [if_pos h, if_pos (show (withInput r s).x + 1 = (withInput r s).width from h)]; rfl
  · rw [if_neg h, if_neg (show ¬ (withInput r s).x + 1 = (withInput r s).width from h)]; rfl

theorem padFlush_withInput (r : List HostMove) (s : State) : padFlush (withInput r s) = withInput r (padFlush s) := by
  unfold padFlush
  by_cases h : s.npend ≠ 0#3
  · rw [if_pos h, if_pos (show (withInput r s).npend ≠ 0#3 from h)]; rfl
  · rw [if_neg h, if_neg (show ¬ (withInput r s).npend ≠ 0#3 from h)]; rfl

theorem closeFrame_withInput (r : List HostMove) (s : State) :
    closeFrame (withInput r s) = withInput r (closeFrame s) := rfl

theorem pulseDone_withInput (r : List HostMove) (s : State) :
    pulseDone (withInput r s) = withInput r (pulseDone s) := rfl

/-! The serializer -/

/-- The bits in hand are the pending bits and then the ten of the sample (R80). -/
theorem bitsInHand_toNat (acc : BitVec 8) (p : Nat) (v : Sample) (hp : p < 8) :
    (bitsInHand acc p v).toNat = acc.toNat / 2 ^ (8 - p) * 1024 + v.toNat := by
  have ha := acc.isLt
  have hv := v.isLt
  have hq : acc.toNat / 2 ^ (8 - p) < 128 := by
    interval_cases p <;> simp <;> omega
  simp only [bitsInHand, BitVec.toNat_add, BitVec.toNat_mul, BitVec.toNat_setWidth, BitVec.toNat_ushiftRight,
    Nat.shiftRight_eq_div_pow, BitVec.toNat_ofNat]
  omega

/-- The same as a concatenation. -/
theorem bitsInHand_eq_append (acc : BitVec 8) (p : Nat) (v : Sample) (hp : p < 8) :
    bitsInHand acc p v = (acc >>> (8 - p)).setWidth 7 ++ v := by
  have ha := acc.isLt
  have hq : acc.toNat / 2 ^ (8 - p) < 128 := by
    interval_cases p <;> simp <;> omega
  apply BitVec.eq_of_toNat_eq
  rw [bitsInHand_toNat acc p v hp, BitVec.toNat_append, ← Nat.shiftLeft_add_eq_or_of_lt v.isLt, Nat.shiftLeft_eq,
    BitVec.toNat_setWidth, BitVec.toNat_ushiftRight, Nat.shiftRight_eq_div_pow, Nat.mod_eq_of_lt hq]

/-- The bytes APPEND10 emits (R80). -/
def appendedBytes (s : State) (v : Sample) : List Byte :=
  let t := bitsInHand s.acc s.npend.toNat v
  if 6 ≤ s.npend.toNat then
    [t.extractLsb' (s.npend.toNat + 2) 8, t.extractLsb' (s.npend.toNat - 6) 8]
  else [t.extractLsb' (s.npend.toNat + 2) 8]

/-- Everything APPEND10 does (R80), in one record. -/
theorem append10_eq (s : State) (v : Sample) :
    append10 v s =
      { s with
        trace := s.trace ++ (appendedBytes s v).map .byte
        outcnt := s.outcnt + BitVec.ofNat 34 (appendedBytes s v).length
        acc := leftAligned (bitsInHand s.acc s.npend.toNat v) ((s.npend.toNat + 2) % 8)
        npend := BitVec.ofNat 3 ((s.npend.toNat + 2) % 8)
        bitpos := s.bitpos + 10 } := by
  have hp : s.npend.toNat < 8 := s.npend.isLt
  by_cases h : 6 ≤ s.npend.toNat
  · have e : (s.npend.toNat + 2) % 8 = s.npend.toNat - 6 := by omega
    simp [append10, appendedBytes, h, e, emit, setPending, advanceBitpos, BitVec.add_assoc]
  · have e : (s.npend.toNat + 2) % 8 = s.npend.toNat + 2 := by omega
    simp [append10, appendedBytes, h, e, emit, setPending, advanceBitpos]

theorem append10_withInput (v : Sample) (r : List HostMove) (s : State) :
    append10 v (withInput r s) = withInput r (append10 v s) := by
  rw [append10_eq, append10_eq]
  rfl

theorem appendedBytes_length (s : State) (v : Sample) : (appendedBytes s v).length = (s.npend.toNat + 10) / 8 := by
  have hp : s.npend.toNat < 8 := s.npend.isLt
  unfold appendedBytes
  split <;> simp <;> omega

/-! The meanings: each answers a next state, and these are the states it can answer -/

theorem execStart_cases {w h : Operand} {s s' : State} (e : execStart w h s = .next s') :
    (s.st = .err ∧ s' = s) ∨ (s.st = .pack ∧ s' = raiseFault .sequenceError s) ∨
      (s.st = .idle ∧ s' = openFrame w h s) := by
  unfold execStart discardCommand at e
  cases hs : s.st <;> simp_all

theorem execPixel_cases {r g b : Operand} {s s' : State} (e : execPixel r g b s = .next s') :
    (s.st = .err ∧ s' = s) ∨ (s.st = .idle ∧ s' = raiseFault .sequenceError s) ∨
      (s.st = .pack ∧ full s = true ∧ s' = raiseFault .frameOverrun s) ∨
      (s.st = .pack ∧ full s = false ∧ chansOk r g b = false ∧ s' = raiseFault .invalidChannelValue s) ∨
      (s.st = .pack ∧ full s = false ∧ chansOk r g b = true ∧
        s' = advanceCursor (append10 (sampleOf b) (append10 (sampleOf g) (append10 (sampleOf r) s)))) := by
  unfold execPixel discardCommand at e
  cases hs : s.st <;> cases hf : full s <;> cases hc : chansOk r g b <;> simp_all

theorem execEnd_cases {s s' : State} (e : execEnd s = .next s') :
    (s.st = .err ∧ s' = s) ∨ (s.st = .idle ∧ s' = raiseFault .sequenceError s) ∨
      (s.st = .pack ∧ full s = false ∧ s' = raiseFault .frameUnderrun s) ∨
      (s.st = .pack ∧ full s = true ∧ s' = pulseDone (closeFrame (padFlush s))) := by
  unfold execEnd discardCommand at e
  cases hs : s.st <;> cases hf : full s <;> simp_all

theorem takeWord_cases {w : Word} {s s' : State} (e : takeWord w s = .next s') :
    (s.st = .err ∧ s' = s) ∨
      (s.st ≠ .err ∧ (∃ r, decode w = .error r) ∧ s' = raiseFault .illegalCommand s) ∨
      (s.st ≠ .err ∧ ∃ i, decode w = .ok i ∧ exec i s = .next s') := by
  unfold takeWord discardCommand at e
  cases hd : decode w <;> by_cases hs : s.st = .err <;> simp_all

/-- Everything a step can do: wait, take a word, or reset. -/
theorem step_cases {s s' : State} (e : step s = .next s') :
    (s.input = [] ∧ s' = s) ∨
      (∃ w rest, s.input = .word w :: rest ∧ takeWord w (withInput rest s) = .next s') ∨
      (∃ rest, s.input = .reset :: rest ∧ s' = assertReset (withInput rest s)) := by
  unfold step takeMove at e
  split at e
  · next h => exact .inl ⟨h, by simpa using e.symm⟩
  · next w rest h => exact .inr (.inl ⟨w, rest, h, e⟩)
  · next rest h => exact .inr (.inr ⟨rest, h, by simpa using e.symm⟩)

/-- A step with a word at the head of the host's moves takes that word. -/
@[simp] theorem step_presentWord (w : Word) (s : State) : step (presentWord w s) = takeWord w s := rfl

@[simp] theorem step_withInput_word (w : Word) (rest : List HostMove) (s : State) :
    step (withInput (.word w :: rest) s) = takeWord w (withInput rest s) := rfl

@[simp] theorem step_withInput_reset (rest : List HostMove) (s : State) :
    step (withInput (.reset :: rest) s) = .next (assertReset (withInput rest s)) := rfl

end Sys2Proof.Machine
end

