-- ==== Sys2Proof/Laws/PerInstr.lean ====
section
/-! SUPPORT. The family of facts about each command as syntax: it is well formed, and its encoding has the match of its
row of spec/opcode_table.json under the row's mask (R57, R58, R59). -/

namespace Sys2Proof.Laws.EncodesTableRow

/-- The mask of the command's row (R57 to R59). -/
def rowMask : Instr → Word
  | .start _ _ => 0xFFFF00000000FFFF
  | .pixel _ _ _ => 0xFFFF000000000000
  | .endFrame => 0xFFFFFFFFFFFFFFFF

/-- The match of the command's row (R57 to R59). -/
def rowMatch : Instr → Word
  | .start _ _ => 0x0100000000000000
  | .pixel _ _ _ => 0x0200000000000000
  | .endFrame => 0x0300000000000000

/-- The command is well formed and its word is one of its row's. -/
def Statement (i : Instr) : Prop := i.wellFormed = true ∧ encode i &&& rowMask i = rowMatch i

theorem start (w h : Operand) : Statement (.start w h) := by
  refine ⟨rfl, BitVec.eq_of_getLsbD_eq fun i hi => ?_⟩
  simp only [encode, formatC, rowMask, rowMatch, BitVec.getLsbD_and, BitVec.getLsbD_append]
  interval_cases i <;> simp

theorem pixel (r g b : Operand) : Statement (.pixel r g b) := by
  refine ⟨rfl, BitVec.eq_of_getLsbD_eq fun i hi => ?_⟩
  simp only [encode, formatC, rowMask, rowMatch, BitVec.getLsbD_and, BitVec.getLsbD_append]
  interval_cases i <;> simp

theorem endFrame : Statement .endFrame := by
  unfold Statement
  decide

end Sys2Proof.Laws.EncodesTableRow
end

