-- ==== Sys2Proof/Laws/Run.lean ====
section
/-! SUPPORT. Runs of several steps, one step or one part at a time; what a sink accepts; the invariant says nothing of
the host's moves to come. -/

namespace Sys2Proof.Machine

@[simp] theorem run_zero (s : State) : run 0 s = .next s := rfl

theorem run_succ_of_next {n : Nat} {s s' : State} (h : step s = .next s') : run (n + 1) s = run n s' := by
  simp [run, h]

theorem run_add_of_next {a : Nat} (b : Nat) {s s' : State} (h : run a s = .next s') : run (a + b) s = run b s' := by
  induction a generalizing s with
  | zero =>
    simp only [run_zero, Host.Outcome.next.injEq] at h
    simp [h]
  | succ a ih =>
    rw [Nat.add_right_comm]
    simp only [run] at h ⊢
    split at h
    · exact ih h
    · cases h
    · cases h

/-- What a conforming sink has after the bytes of a frame (R138). -/
theorem acceptedFrom_bytes (bs acc : List Byte) (rest : List OutItem) :
    acceptedFrom acc (bs.map .byte ++ rest) = acceptedFrom (acc ++ bs) rest := by
  induction bs generalizing acc with
  | nil => simp
  | cons b bs ih => simp [acceptedFrom, ih]

/-! The invariant and the host's moves -/

theorem OpenFrame.withInput {s : State} (h : OpenFrame s) (moves : List HostMove) :
    OpenFrame (Machine.withInput moves s) :=
  { i1 := h.i1, i2 := h.i2, i3 := h.i3, i4 := h.i4, i5 := h.i5, i6 := h.i6, i7 := h.i7, i8 := h.i8, i10 := h.i10 }

theorem BetweenFrames.withInput {s : State} (h : BetweenFrames s) (moves : List HostMove) :
    BetweenFrames (Machine.withInput moves s) :=
  { acc := h.acc, npend := h.npend, last := h.last }

theorem Inv.withInput {s : State} (h : Inv s) (moves : List HostMove) : Inv (Machine.withInput moves s) where
  packed hs := ⟨(h.packed hs).1, (h.packed hs).2.withInput moves⟩
  idle hs := ⟨(h.idle hs).1, (h.idle hs).2.withInput moves⟩
  failed hs := ⟨(h.failed hs).1, (h.failed hs).2.imp (·.withInput moves) (·.withInput moves)⟩

theorem Inv.presentWord {s : State} (h : Inv s) (w : Word) : Inv (Machine.presentWord w s) := h.withInput _

end Sys2Proof.Machine
end

