-- ==== Sys2Proof/Laws/Stream.lean ====
section
/-! SUPPORT. The lists of bits of bytes, samples and streams (R40, R41, R68), and their small lemmas. -/

namespace Sys2Proof.Machine

theorem byteBits_eq (b : Byte) :
    byteBits b = [b.getLsbD 7, b.getLsbD 6, b.getLsbD 5, b.getLsbD 4, b.getLsbD 3, b.getLsbD 2, b.getLsbD 1,
      b.getLsbD 0] := rfl

theorem sampleBits_eq (v : Sample) :
    sampleBits v = [v.getLsbD 9, v.getLsbD 8, v.getLsbD 7, v.getLsbD 6, v.getLsbD 5, v.getLsbD 4, v.getLsbD 3,
      v.getLsbD 2, v.getLsbD 1, v.getLsbD 0] := rfl

@[simp] theorem byteBits_length (b : Byte) : (byteBits b).length = 8 := rfl

/-- A field has SAMPLE_W bits, and a pixel has three fields (R7). -/
theorem sampleBits_length_eq (v : Sample) :
    (sampleBits v).length = Config.sampleBits ∧ Config.pixelBits = 3 * Config.sampleBits := ⟨rfl, rfl⟩

@[simp] theorem sampleBits_length (v : Sample) : (sampleBits v).length = 10 := rfl

@[simp] theorem streamPrefix_length (ps : List Pixel) (n : Nat) : (streamPrefix ps n).length = n := by
  simp [streamPrefix]

@[simp] theorem packBytes_length (ps : List Pixel) : (packBytes ps).length = outputLength ps.length := by
  simp [packBytes]

/-- A byte built from eight bits reads back as those bits (R41). -/
@[simp] theorem byteBits_byteOfBits (f : Nat → Bool) :
    byteBits (byteOfBits f) = [f 0, f 1, f 2, f 3, f 4, f 5, f 6, f 7] := by
  simp only [byteBits_eq, byteOfBits]
  generalize f 0 = b0, f 1 = b1, f 2 = b2, f 3 = b3, f 4 = b4, f 5 = b5, f 6 = b6, f 7 = b7
  revert b0 b1 b2 b3 b4 b5 b6 b7
  decide

/-- A byte is what its bits say. -/
theorem byteBits_injective {b c : Byte} (h : byteBits b = byteBits c) : b = c := by
  simp only [byteBits_eq, List.cons.injEq] at h
  apply BitVec.eq_of_getLsbD_eq
  intro i hi
  interval_cases i <;> simp_all

theorem flatMap_byteBits_length (bs : List Byte) : (bs.flatMap byteBits).length = 8 * bs.length := by
  induction bs with
  | nil => rfl
  | cons b bs ih => simp [ih]; omega

/-- Byte strings with the same bits are the same. -/
theorem flatMap_byteBits_injective {bs cs : List Byte} (h : bs.flatMap byteBits = cs.flatMap byteBits) : bs = cs := by
  induction bs generalizing cs with
  | nil => cases cs <;> simp_all [byteBits_eq]
  | cons b bs ih =>
    cases cs with
    | nil => simp [byteBits_eq] at h
    | cons c cs =>
      simp only [List.flatMap_cons] at h
      obtain ⟨h1, h2⟩ := List.append_inj h rfl
      rw [byteBits_injective h1, ih h2]

/-- The stream of a list is a prefix of the stream of a longer one (R40). -/
theorem streamBit_append (ps qs : List Pixel) {k : Nat} (h : k < 30 * ps.length) :
    streamBit (ps ++ qs) k = streamBit ps k := by
  simp only [streamBit]
  rw [List.getElem?_append_left (by omega)]

/-- Past its end the stream reads as the padding (R42). -/
theorem streamBit_past (ps : List Pixel) {k : Nat} (h : 30 * ps.length ≤ k) : streamBit ps k = false := by
  simp only [streamBit]
  rw [List.getElem?_eq_none (by omega)]

theorem streamPrefix_add (ps : List Pixel) (a b : Nat) :
    streamPrefix ps (a + b) = streamPrefix ps a ++ (List.range b).map fun j => streamBit ps (a + j) := by
  simp [streamPrefix, List.range_add, Function.comp_def]

theorem streamPrefix_append (ps qs : List Pixel) {n : Nat} (h : n ≤ 30 * ps.length) :
    streamPrefix (ps ++ qs) n = streamPrefix ps n := by
  simp only [streamPrefix, List.map_inj_left, List.mem_range]
  intro k hk
  exact streamBit_append ps qs (by omega)

/-- Bytes cut from a sequence of bits hold those bits in order (R41). -/
theorem flatMap_byteBits_range (f : Nat → Bool) (m : Nat) :
    ((List.range m).map fun i => byteOfBits fun j => f (8 * i + j)).flatMap byteBits = (List.range (8 * m)).map f := by
  induction m with
  | zero => rfl
  | succ m ih =>
    rw [List.range_succ, List.map_append, List.flatMap_append, ih, show 8 * (m + 1) = 8 * m + 8 by omega,
      List.range_add]
    simp [List.range_succ]

end Sys2Proof.Machine
end

