-- ==== Sys2Proof/Tests/Slice0.lean ====
section
/-! SUPPORT. The model's own tests. Expected values come from 95_test_vectors.md or from the rule named beside the test.
The second half gives, for every statement with hypotheses, a concrete state and operands that meet them. -/

namespace Sys2Proof.Tests

open Sys2Proof Sys2Proof.Machine

/-! States of the spec's traces -/

/-- The state with the registers in the order of 95_test_vectors.md, and this output since reset. -/
def mk (st : BlockState) (code : ErrCode) (w h x y : BitVec 16) (bitpos : BitVec 37) (outcnt : BitVec 34) (acc : Byte)
    (npend : BitVec 3) (out : List OutItem) : State :=
  { State.reset with
    st := st, errcode := code, width := w, height := h, x := x, y := y, bitpos := bitpos, outcnt := outcnt, acc := acc
    npend := npend, trace := out }

/-- V2, after START 2, 1. -/
def opened : State := mk .pack .none 2 1 0 0 0 0 0 0 []

/-- V2, after PIXEL 0, 0, 0: the next pixel is the last of its row and of the frame. -/
def midFrame : State := mk .pack .none 2 1 1 0 30 3 0 6 [.byte 0, .byte 0, .byte 0]

/-- V2, after the second pixel: the frame is full and 4 bits are pending. -/
def fullFrame : State :=
  mk .pack .none 2 1 0 1 60 7 0xC0 4 [.byte 0, .byte 0, .byte 0, .byte 0x03, .byte 0xFC, .byte 0xFF, .byte 0x3F]

/-- V2, after END. -/
def closed : State :=
  mk .idle .none 2 1 0 1 60 8 0 0
    [.byte 0, .byte 0, .byte 0, .byte 0x03, .byte 0xFC, .byte 0xFF, .byte 0x3F, .byte 0xC0, .done]

/-- A frame of no area, after START 0, 7 (V3). -/
def emptyFrame : State := mk .pack .none 0 7 0 0 0 0 0 0 []

/-- The state `midFrame` after the illegal word of all zeros. -/
def failed : State := mk .err .illegalCommand 2 1 1 0 30 3 0 6 [.byte 0, .byte 0, .byte 0]

/-- The frame of V2. -/
def frame : Frame := ⟨2, 1, [⟨0, 0, 0⟩, ⟨255, 255, 255⟩]⟩

/-! WellFormed: each check refuses an ill-formed term (R65, R66) -/

theorem test_wf_start_width : (AsmLine.start 65536 0).wellFormed = false := by decide
theorem test_wf_start_height : (AsmLine.start 0 65536).wellFormed = false := by decide
theorem test_wf_pixel_r : (AsmLine.pixel 65536 0 0).wellFormed = false := by decide
theorem test_wf_pixel_g : (AsmLine.pixel 0 65536 0).wellFormed = false := by decide
theorem test_wf_pixel_b : (AsmLine.pixel 0 0 65536).wellFormed = false := by decide
theorem test_wf_pack_width : (AsmLine.pack 65536 0 []).wellFormed = false := by decide
theorem test_wf_pack_height : (AsmLine.pack 0 65536 []).wellFormed = false := by decide
theorem test_wf_pack_count : (AsmLine.pack 2 1 [(0, 0, 0)]).wellFormed = false := by decide
theorem test_wf_pack_channel : (AsmLine.pack 1 1 [(0, 0, 65536)]).wellFormed = false := by decide
theorem test_wf_largest : (AsmLine.start 65535 65535).wellFormed = true := by decide
theorem test_wf_illegal_channel_is_encodable : (AsmLine.pixel 256 0 65535).wellFormed = true := by decide

/-! Decoding: words written field by field from R57 to R59; refusals by name (R62) -/

theorem test_decode_start :
    decode (0x01#8 ++ (0x00#8 ++ (0b0000011110000000#16 ++ (0b0000010000111000#16 ++ 0x0000#16)))) =
      .ok (.start 1920 1080) := by rfl
theorem test_decode_pixel :
    decode (0x02#8 ++ (0x00#8 ++ (0b0000000011111111#16 ++ (0b0000000010000000#16 ++ 0b0000000000000001#16)))) =
      .ok (.pixel 255 128 1) := by rfl
theorem test_decode_end : decode (0x03#8 ++ 0x00000000000000#56) = .ok .endFrame := by rfl
theorem test_decode_zero_word : decode 0 = .error .reservedOpcode := by rfl
theorem test_decode_opcode_04 : decode 0x0400000000000000 = .error .reservedOpcode := by rfl
theorem test_decode_zero_field : decode 0x0280000100020003 = .error .zeroFieldNotZero := by rfl
theorem test_decode_start_c : decode 0x0100000100018000 = .error .startOperandC := by rfl
theorem test_decode_end_operand : decode 0x0300800000000000 = .error .endOperand := by rfl
theorem test_table_word : decodeTableWord 64 0x0200000000000000 = some (.pixel 0 0 0) := by rfl

/-! The assembler's text (R65, R66) -/

theorem test_asm_pixel : assembleText "PIXEL 255, 0x80, 0 ; one".toList = some [.pixel 255 128 0] := by decide
theorem test_asm_pack :
    assembleText "PACK 1, 1, [(1,2,3)]".toList = some [.start 1 1, .pixel 1 2 3, .endFrame] := by decide
theorem test_asm_refuses : assembleText "START 65536, 1".toList = none := by decide

/-! One step each, from the traces of 95_test_vectors.md -/

/-- V2, row 1. -/
theorem test_start : step (presentWord 0x0100000200010000 State.reset) = .next opened := by rfl
/-- V2, row 2. -/
theorem test_pixel_first : step (presentWord 0x0200000000000000 opened) = .next midFrame := by rfl
/-- V2, row 3: the last pixel of a row, which is the frame's last. -/
theorem test_pixel_last : step (presentWord 0x020000FF00FF00FF midFrame) = .next fullFrame := by rfl
/-- V2, row 4. -/
theorem test_end : step (presentWord 0x0300000000000000 fullFrame) = .next closed := by rfl
/-- R46, by hand: the pending bits 01 and thirty zeros fill four bytes. -/
theorem test_pixel_from_two :
    exec (.pixel 0 0 0) (mk .pack .none 4 1 3 0 90 11 0x40 2 []) =
      .next (mk .pack .none 4 1 0 1 120 15 0 0 [.byte 0x40, .byte 0, .byte 0, .byte 0]) := by rfl
/-- F7, F8: the all-zero word in a frame. -/
theorem test_illegal : step (presentWord 0 midFrame) = .next failed := by rfl
/-- F17: in ERR even START is discarded. -/
theorem test_discard : step (presentWord 0x0100000100010000 failed) = .next failed := by rfl
/-- X1: reset out of ERR keeps the failed frame's bytes with the sink. -/
theorem test_reset :
    step (withInput [.reset] failed) = .next { State.reset with earlier := [[.byte 0, .byte 0, .byte 0]] } := by rfl
/-- V3: END of a frame of no area. -/
theorem test_end_empty :
    step (presentWord 0x0300000000000000 emptyFrame) = .next (mk .idle .none 0 7 0 0 0 0 0 0 [.done]) := by rfl
/-- F12: 256 is the least illegal channel (R101). -/
theorem test_channel_256 :
    exec (.pixel 256 0 0) opened = .next (raiseFault .invalidChannelValue opened) := by rfl
/-- F15: a surplus pixel with a bad channel is FRAME_OVERRUN. -/
theorem test_overrun_first :
    exec (.pixel 256 0 0) fullFrame = .next (raiseFault .frameOverrun fullFrame) := by rfl
/-- R80's example. -/
theorem test_append10 :
    append10 516 (mk .pack .none 9 9 0 0 2 0 0xC0 2 []) = mk .pack .none 9 9 0 0 12 1 0x40 4 [.byte 0xE0] := by rfl
/-- R80: the pseudocode is defined for an odd NPEND too. By hand: 7 pending ones and ten zeros. -/
theorem test_append10_seven :
    append10 0 (mk .pack .none 9 9 0 0 7 0 0xFE 7 []) =
      mk .pack .none 9 9 0 0 17 2 0 1 [.byte 0xFE, .byte 0x00] := by rfl
/-- V2's bytes from the reference function (R108). -/
theorem test_pack : pack frame.pixels = .bytes [0x00, 0x00, 0x00, 0x03, 0xFC, 0xFF, 0x3F, 0xC0] := by decide
/-- V2: reading the first field of pixel 1 back (R43). -/
theorem test_read_field : readField [0x00, 0x00, 0x00, 0x03, 0xFC, 0xFF, 0x3F, 0xC0] 1 0 = 1020 := by decide
/-- R75's corner cases of the scaler. -/
theorem test_scale : scale 255 = 1020 ∧ scale 128 = 512 ∧ scale 1 = 4 ∧ scale 0 = 0 := by decide
/-- `withFetchWord` places the word that the very next step runs. -/
theorem test_fetch_word : step (State.reset.withFetchWord 64 0x0100000200010000) = .next opened := by rfl

/-- R144: END ends the frame well, a fault or a reset ends it badly, a pixel leaves it open. -/
theorem test_frame_end :
    frameEnd fullFrame closed = some .well ∧ frameEnd midFrame failed = some .badly ∧
      frameEnd (withInput [.reset] opened) State.reset = some .badly ∧ frameEnd opened midFrame = none := by decide
/-- R144: the three kinds of end state, and a run that has a word to come. -/
theorem test_run_end :
    runEnd closed = some .good ∧ runEnd failed = some .faulted ∧ runEnd (withInput [.reset] midFrame) = some .unfinished ∧
      runEnd (presentWord 0 closed) = none := by decide

/-! The invariant has members of each kind -/

theorem frame_legal : frame.legal := by
  refine ⟨by decide, ?_⟩
  decide

theorem opened_inv : Inv opened := by
  refine ⟨fun _ => ⟨rfl, ?_⟩, fun h => absurd h (by decide), fun h => absurd h (by decide)⟩
  exact {
    i1 := by decide, i2 := by decide, i3 := by decide, i4 := by decide, i5 := by decide, i6 := by decide
    i7 := by decide, i8 := by decide
    i10 := ⟨[], [], [], ⟨[], by simp, rfl⟩, rfl, rfl, rfl, by simp, by decide⟩ }

theorem midFrame_inv : Inv midFrame := by
  refine ⟨fun _ => ⟨rfl, ?_⟩, fun h => absurd h (by decide), fun h => absurd h (by decide)⟩
  exact {
    i1 := by decide, i2 := by decide, i3 := by decide, i4 := by decide, i5 := by decide, i6 := by decide
    i7 := by decide, i8 := by decide
    i10 := ⟨[], [0, 0, 0], [⟨0, 0, 0⟩], ⟨[], by simp, rfl⟩, rfl, rfl, rfl, by decide, by decide⟩ }

theorem fullFrame_inv : Inv fullFrame := by
  refine ⟨fun _ => ⟨rfl, ?_⟩, fun h => absurd h (by decide), fun h => absurd h (by decide)⟩
  exact {
    i1 := by decide, i2 := by decide, i3 := by decide, i4 := by decide, i5 := by decide, i6 := by decide
    i7 := by decide, i8 := by decide
    i10 := ⟨[], [0, 0, 0, 0x03, 0xFC, 0xFF, 0x3F], frame.pixels, ⟨[], by simp, rfl⟩, rfl, rfl, rfl, by decide,
      by decide⟩ }

theorem emptyFrame_inv : Inv emptyFrame := by
  refine ⟨fun _ => ⟨rfl, ?_⟩, fun h => absurd h (by decide), fun h => absurd h (by decide)⟩
  exact {
    i1 := by decide, i2 := by decide, i3 := by decide, i4 := by decide, i5 := by decide, i6 := by decide
    i7 := by decide, i8 := by decide
    i10 := ⟨[], [], [], ⟨[], by simp, rfl⟩, rfl, rfl, rfl, by simp, by decide⟩ }

theorem closed_inv : Inv closed := by
  refine ⟨fun h => absurd h (by decide), fun _ => ⟨rfl, rfl, rfl, .inr ?_⟩, fun h => absurd h (by decide)⟩
  exact ⟨[], frame, ⟨[], by simp, rfl⟩, frame_legal, by decide, rfl, rfl, rfl, rfl, by decide, by decide⟩

theorem failed_inv : Inv failed := by
  refine ⟨fun h => absurd h (by decide), fun h => absurd h (by decide), fun _ => ⟨by decide, .inl ?_⟩⟩
  exact {
    i1 := by decide, i2 := by decide, i3 := by decide, i4 := by decide, i5 := by decide, i6 := by decide
    i7 := by decide, i8 := by decide
    i10 := ⟨[], [0, 0, 0], [⟨0, 0, 0⟩], ⟨[], by simp, rfl⟩, rfl, rfl, rfl, by decide, by decide⟩ }

/-- The state after the reset of `test_reset`: its earlier run ended in a frame that did not complete. -/
theorem earlier_closed : EarlierClosed { State.reset with earlier := [[.byte 0, .byte 0, .byte 0]] } := by
  intro t ht
  simp only [List.mem_singleton] at ht
  exact ⟨[], [0, 0, 0], ⟨[], by simp, rfl⟩, ht⟩

/-! Witnesses: states and operands that meet a statement's hypotheses together, clause by clause -/

theorem witness_IllegalWordsRaiseOrAreDiscarded :
    (decode 0x0300000000000001).toOption = none ∧ midFrame.st ≠ .err ∧ failed.st = .err := by decide

theorem witness_PackExpandsToFrameCommands :
    (AsmLine.pack 2 1 [(0, 0, 0), (255, 256, 65535)]).wellFormed = true ∧
      [(0, 0, 0), (255, 256, 65535)][1]? = some (255, 256, 65535) ∧ (AsmLine.pack 7 0 []).wellFormed = true := by decide

theorem witness_RangeCheckReadsWholeOperand : chanOk 255 = true ∧ chanOk 256 = false := by decide

theorem witness_AppendEmitsCompleteBytes :
    (mk .pack .none 9 9 0 0 2 0 0xC0 2 []).acc = 0xC0 ∧ (mk .pack .none 9 9 0 0 2 0 0xC0 2 []).npend = 2 := by decide

theorem witness_AppendTable :
    opened.npend = 0#3 ∧ (mk .pack .none 9 9 0 0 2 0 0xC0 2 []).npend = 2 ∧ fullFrame.npend = 4 ∧
      midFrame.npend = 6 := by decide

theorem witness_AppendKeepsSerializerLaws :
    fullFrame.acc <<< fullFrame.npend.toNat = 0 ∧ fullFrame.npend.toNat = fullFrame.bitpos.toNat % 8 ∧
      fullFrame.outcnt.toNat = fullFrame.bitpos.toNat / 8 := by decide

/-- For the statements about a PIXEL that packs: the last of a row (`midFrame`) and another (`opened`), with the largest
legal channel. -/
theorem witness_pixel_packs :
    (midFrame.st = .pack ∧ full midFrame = false ∧ midFrame.width ≠ 0#16 ∧ midFrame.y ≠ midFrame.height ∧
      midFrame.x.toNat + 1 = midFrame.width.toNat) ∧
    (opened.st = .pack ∧ full opened = false ∧ opened.width ≠ 0#16 ∧ opened.y ≠ opened.height ∧
      opened.x.toNat + 1 ≠ opened.width.toNat) ∧
    chansOk 255 255 255 = true ∧ (255 : Operand).toNat ≤ 255 ∧ midFrame.npend.toNat % 2 = 0 := by decide

/-- For the clauses about a PIXEL that faults: a full frame, a frame of no area, and the least illegal channel. -/
theorem witness_pixel_faults :
    (fullFrame.st = .pack ∧ fullFrame.y = fullFrame.height ∧ full fullFrame = true) ∧
    (emptyFrame.st = .pack ∧ emptyFrame.width = 0#16 ∧ full emptyFrame = true) ∧
    (full opened = false ∧ 255 < (256 : Operand).toNat ∧ chansOk 0 0 256 = false) := by decide

theorem witness_PadFlushAndClear :
    midFrame.npend ≠ 0#3 ∧ opened.npend = 0#3 ∧ (mk .pack .none 9 9 0 0 6 0 0xF0 6 []).acc = 0xF0 ∧
      (mk .pack .none 9 9 0 0 6 0 0xF0 6 []).npend = 6 ∧
      fullFrame.npend ≠ 0#3 ∧ fullFrame.acc <<< fullFrame.npend.toNat = 0 := by decide

theorem witness_SerializerHoldsPlainBitList : 10 * ([1020, 512, 0] : List Sample).length < 2 ^ 37 := by decide

theorem witness_StartOpensFrame :
    closed.st = .idle ∧ opened.st = .pack ∧ failed.st = .err ∧
      exec (.start 1 1) State.reset = .next (mk .pack .none 1 1 0 0 0 0 0 0 []) := by
  exact ⟨rfl, rfl, rfl, rfl⟩

theorem witness_EndFlushesAndCloses :
    (Inv fullFrame ∧ fullFrame.st = .pack ∧ full fullFrame = true ∧ fullFrame.npend ≠ 0#3) ∧
    (emptyFrame.st = .pack ∧ emptyFrame.width = 0#16 ∧ emptyFrame.npend = 0#3) ∧
    (midFrame.st = .pack ∧ midFrame.width ≠ 0#16 ∧ midFrame.y ≠ midFrame.height) ∧
    closed.st = .idle ∧ failed.st = .err ∧ exec .endFrame fullFrame = .next closed :=
  ⟨⟨fullFrame_inv, by decide⟩, by decide, by decide, rfl, rfl, rfl⟩

/-- For each cell of the table, a state, a word and the step's answer. -/
theorem witness_StateMachineTable :
    decode 0x0100000100010000 = .ok (.start 1 1) ∧ decode 0x0200000000000100 = .ok (.pixel 0 0 256) ∧
    decode 0x0200000000000000 = .ok (.pixel 0 0 0) ∧ decode 0x0300000000000000 = .ok .endFrame ∧
    step (presentWord 0x0100000100010000 closed) =
      .next { closed with
        st := .pack, width := 1, height := 1, x := 0, y := 0, bitpos := 0, outcnt := 0, acc := 0, npend := 0 } ∧
    step (presentWord 0x0200000000000000 closed) = .next (raiseFault .sequenceError closed) ∧
    step (presentWord 0x0300000000000000 closed) = .next (raiseFault .sequenceError closed) ∧
    step (presentWord 0x0100000100010000 opened) = .next (raiseFault .sequenceError opened) ∧
    step (presentWord 0x0200000000000100 opened) = .next (raiseFault .invalidChannelValue opened) ∧
    step (presentWord 0x0200000000000000 fullFrame) = .next (raiseFault .frameOverrun fullFrame) ∧
    step (presentWord 0x0300000000000000 midFrame) = .next (raiseFault .frameUnderrun midFrame) := by
  exact ⟨rfl, rfl, rfl, rfl, rfl, rfl, rfl, rfl, rfl, rfl, rfl⟩

theorem witness_ZeroAreaFrameIsEmpty :
    State.reset.st = .idle ∧ (0 : Operand) = 0#16 ∧ exec (.start 0 7) State.reset = .next emptyFrame := by
  exact ⟨rfl, rfl, rfl⟩

/-- For the statements about a PIXEL or an END in a state with the invariant. -/
theorem witness_inv_and_command :
    (Inv midFrame ∧ midFrame.st = .pack ∧ full midFrame = false ∧ chansOk 255 0 255 = true) ∧
    (Inv opened ∧ opened.st = .pack ∧ full opened = false) ∧
    (Inv fullFrame ∧ fullFrame.st = .pack ∧ full fullFrame = true) ∧
    (Inv emptyFrame ∧ emptyFrame.st = .pack ∧ full emptyFrame = true) :=
  ⟨⟨midFrame_inv, by decide⟩, ⟨opened_inv, by decide⟩, ⟨fullFrame_inv, by decide⟩, ⟨emptyFrame_inv, by decide⟩⟩

/-- The four values of NPEND before a PIXEL and before an END that the table names. -/
theorem witness_BytesPerCommand :
    (opened.npend.toNat = 0 ∧ midFrame.npend.toNat = 6 ∧
      (mk .pack .none 4 1 2 0 60 7 0 4 []).npend.toNat = 4 ∧ full (mk .pack .none 4 1 2 0 60 7 0 4 []) = false ∧
      (mk .pack .none 4 1 3 0 90 11 0 2 []).npend.toNat = 2 ∧ full (mk .pack .none 4 1 3 0 90 11 0 2 []) = false) ∧
    (emptyFrame.npend.toNat = 0 ∧ fullFrame.npend.toNat = 4 ∧
      (mk .pack .none 1 1 0 1 30 3 0 6 []).npend.toNat = 6 ∧ full (mk .pack .none 1 1 0 1 30 3 0 6 []) = true ∧
      (mk .pack .none 3 1 0 1 90 11 0 2 []).npend.toNat = 2 ∧ full (mk .pack .none 3 1 0 1 90 11 0 2 []) = true) ∧
    step (presentWord 0 midFrame) = .next failed ∧ failed.st = .err := by
  exact ⟨by decide, by decide, rfl, rfl⟩

/-- For the statements about the commands of a whole frame: a legal frame, and one whose second pixel is the first with
an illegal channel. -/
theorem witness_frames :
    closed.st = .idle ∧ Inv closed ∧ frame.legal ∧
    ([Pixel.mk 0 0 0] ++ Pixel.mk 0 256 0 :: []).length = (2 : Operand).toNat * (1 : Operand).toNat ∧
    (∀ p ∈ ([⟨0, 0, 0⟩] : List Pixel), pixelOk p = true) ∧ pixelOk ⟨0, 256, 0⟩ = false ∧
    pack [⟨0, 0, 0⟩, ⟨0, 256, 0⟩] = .invalidChannelValue :=
  ⟨rfl, closed_inv, frame_legal, by decide, by decide, by decide, by decide⟩

/-- A column of two pixels and the row of the same pixels. -/
theorem witness_RowChangeLeavesNoTrace :
    (Frame.mk 1 2 frame.pixels).legal ∧ frame.width.toNat = (1 : Operand).toNat * (2 : Operand).toNat ∧
      frame.height = 1 := by
  refine ⟨⟨by decide, ?_⟩, by decide, by decide⟩
  exact frame_legal.2

/-- For the statements about the bits of a list of pixels. -/
theorem witness_pixel_of_list :
    frame.pixels[1]? = some ⟨255, 255, 255⟩ ∧ pixelOk ⟨255, 255, 255⟩ = true ∧ 2 < 3 ∧
      2 * 30 ≤ 63 ∧ frame.pixels.length = 4 * 0 + 2 := by decide

theorem witness_FourPixelsFillFifteenBytes :
    4 * 0 + 4 ≤ (List.replicate 4 (Pixel.mk 1 2 3)).length ∧ [Pixel.mk 1 2 3].length = 4 * 0 + 1 ∧
      (List.replicate 3 (Pixel.mk 1 2 3)).length = 4 * 0 + 3 := by decide

/-- For the last clause of the priority rule: a command that no line of the rule stops. -/
theorem witness_FaultPriority :
    closed.st ≠ .err ∧ (decode 0x0100000100010000).toOption ≠ none ∧ closed.st ≠ .pack ∧
      decode 0x0100000100010000 = .ok (.start 1 1) := by
  exact ⟨by decide, by decide, by decide, rfl⟩

/-- A list of two words whose first is a good pixel and whose second is illegal. -/
theorem witness_FaultsArePrecise :
    opened.st ≠ .err ∧
      run 2 (withInput ([0x0200000000000000, 0].map .word) opened) = .next failed ∧ failed.st = .err := by
  exact ⟨by decide, rfl, rfl⟩

theorem witness_err_state :
    failed.st = .err ∧ errLine failed = true ∧ failed.input.head? ≠ some .reset ∧ step failed = .next failed ∧
      (failed.errcode ≠ .none ↔ failed.st = .err) ∧ (withInput [.reset] failed).input.head? = some .reset ∧
      State.reset.st ≠ .err := by
  exact ⟨rfl, rfl, by decide, rfl, by decide, rfl, by decide⟩

theorem witness_ResetIsTheOnlyWayOut :
    ∃ s', step (presentWord 0x0100000100010000 (assertReset failed)) = .next s' ∧ s'.st ≠ .err :=
  ⟨_, rfl, by decide⟩

theorem witness_ResetValues : closed.st = .idle ∧ closed.errcode = .none := by decide

theorem witness_step_and_inv :
    Inv (presentWord 0x020000FF00FF00FF midFrame) ∧ EarlierClosed (presentWord 0x020000FF00FF00FF midFrame) ∧
      step (presentWord 0x020000FF00FF00FF midFrame) = .next fullFrame :=
  ⟨midFrame_inv.presentWord _, by simp [EarlierClosed, presentWord, withInput, midFrame, mk, State.reset], rfl⟩

/-- The reset that closes a run. -/
theorem witness_EarlierRunsStayClosed :
    Inv (withInput [.reset] failed) ∧ EarlierClosed (withInput [.reset] failed) ∧
      step (withInput [.reset] failed) = .next { State.reset with earlier := [[.byte 0, .byte 0, .byte 0]] } :=
  ⟨failed_inv.withInput _, by simp [EarlierClosed, withInput, failed, mk, State.reset], rfl⟩

theorem witness_SinkAcceptsOnlyPackedFrames :
    Inv closed ∧ EarlierClosed closed ∧ [0x00, 0x00, 0x00, 0x03, 0xFC, 0xFF, 0x3F, 0xC0] ∈ acceptedFrames closed :=
  ⟨closed_inv, by simp [EarlierClosed, closed, mk, State.reset], by decide⟩

/-- A step from an open frame of each kind; a list of moves whose words are followed by a reset, and by nothing; a state
with the invariant in ERR. -/
theorem witness_EndOfFrameAndRun :
    (fullFrame.st = .pack ∧ step (presentWord 0x0300000000000000 fullFrame) = .next closed ∧
      frameEnd (presentWord 0x0300000000000000 fullFrame) closed = some .well) ∧
    (midFrame.st = .pack ∧ step (presentWord 0 midFrame) = .next failed ∧ failed.st = .err) ∧
    (∀ w, ([.reset] : List HostMove).head? ≠ some (.word w)) ∧ (∀ w, ([] : List HostMove).head? ≠ some (.word w)) ∧
    Inv failed :=
  ⟨⟨rfl, rfl, by decide⟩, ⟨rfl, rfl, rfl⟩, by simp, by simp, failed_inv⟩

theorem witness_FrameEndDecidesAcceptance :
    Inv (presentWord 0x0300000000000000 fullFrame) ∧ (presentWord 0x0300000000000000 fullFrame).st = .pack ∧
    step (presentWord 0x0300000000000000 fullFrame) = .next closed ∧
    frameEnd (presentWord 0x0300000000000000 fullFrame) closed = some .well ∧
    acceptedFrames closed = acceptedFrames fullFrame ++ [[0, 0, 0, 0x03, 0xFC, 0xFF, 0x3F, 0xC0]] ∧
    Inv (presentWord 0 midFrame) ∧ (presentWord 0 midFrame).st = .pack ∧
    step (presentWord 0 midFrame) = .next failed ∧ frameEnd (presentWord 0 midFrame) failed = some .badly :=
  ⟨fullFrame_inv.presentWord _, rfl, rfl, by decide, by decide, midFrame_inv.presentWord _, rfl, rfl, by decide⟩

theorem witness_BlockWaitsForHost : midFrame.input = [] := rfl

theorem witness_StepRunsDecodedCommand :
    (presentWord 0x0300000000000000 fullFrame).input = .word 0x0300000000000000 :: [] ∧
      decode 0x0300000000000000 = .ok .endFrame := by
  exact ⟨rfl, rfl⟩

end Sys2Proof.Tests
end

namespace Sys2Proof.Machine

/-! # What each command and each step can do -/

/-! The arms of `exec` (R56) -/

@[simp] theorem exec_start_eq (w h : Operand) (s : State) : exec (.start w h) s = execStart w h s := rfl

@[simp] theorem exec_pixel_eq (r g b : Operand) (s : State) : exec (.pixel r g b) s = execPixel r g b s := rfl

@[simp] theorem exec_endFrame_eq (s : State) : exec .endFrame s = execEnd s := rfl

/-! The END word (R59) -/

theorem decode_encode_endFrame : decode (encode .endFrame) = .ok .endFrame := by rfl

/-- A word with a zero field of 0 is format C of its own fields (R55). -/
theorem formatC_fields {w : Word} (hzero : zeroField w = 0#8) :
    formatC (opcodeField w) (fieldA w) (fieldB w) (fieldC w) = w := by
  rw [formatC, ← hzero, opcodeField, zeroField, fieldA, fieldB, fieldC]
  iterate 4 rw [BitVec.extractLsb'_append_extractLsb'_eq_extractLsb' (by rfl)]
  exact BitVec.extractLsb'_eq_self

/-- Only one word is END: its opcode is 3 and every other field is 0 (R59, R61). -/
theorem eq_encode_endFrame_of_decode {w : Word} (h : decode w = .ok .endFrame) : w = encode .endFrame := by
  unfold decode at h
  split_ifs at h with hop hzero h1 hC h2 hABC
  · cases h
  · cases h
  · obtain ⟨hA, hB, hC⟩ := hABC
    have hop : opcodeField w = 0x03#8 := by tauto
    rw [← formatC_fields (not_not.1 hzero), hop, hA, hB, hC]
    rfl

theorem decode_eq_endFrame_iff (w : Word) : decode w = .ok .endFrame ↔ w = encode .endFrame :=
  ⟨eq_encode_endFrame_of_decode, fun h => h ▸ decode_encode_endFrame⟩

/-! The states that a successful command answers -/

/-- APPEND10 for each sample of a list, in order (R80). -/
def appendAll (vs : List Sample) (s : State) : State := vs.foldl (fun t v => append10 v t) s

/-- What a successful PIXEL does: the three samples are appended and the cursor makes its step (R101). -/
def packPixel (r g b : Operand) (s : State) : State :=
  advanceCursor (appendAll [sampleOf r, sampleOf g, sampleOf b] s)

/-- What a successful END does: the last bits are flushed, the frame is closed and DONE is pulsed (R106). -/
def finishFrame (s : State) : State := pulseDone (closeFrame (padFlush s))

theorem execStart_of_idle (w h : Operand) {s : State} (hst : s.st = .idle) :
    execStart w h s = .next (openFrame w h s) := by
  simp [execStart, hst]

theorem execPixel_of_full (r g b : Operand) {s : State} (hst : s.st = .pack) (hfull : full s = true) :
    execPixel r g b s = .next (raiseFault .frameOverrun s) := by
  simp [execPixel, hst, hfull]

theorem execPixel_of_legal {r g b : Operand} {s : State} (hst : s.st = .pack) (hfull : full s = false)
    (hc : chansOk r g b = true) : execPixel r g b s = .next (packPixel r g b s) := by
  simp [execPixel, packPixel, appendAll, hst, hfull, hc]

theorem execEnd_of_full {s : State} (hst : s.st = .pack) (hfull : full s = true) :
    execEnd s = .next (finishFrame s) := by
  simp [execEnd, finishFrame, hst, hfull]

/-- A word is discarded exactly as it came in ERR (R123). -/
theorem takeWord_of_err {w : Word} {s s' : State} (hst : s.st = .err) (h : takeWord w s = .next s') : s' = s := by
  rcases takeWord_cases h with ⟨-, h⟩ | ⟨hne, -⟩ | ⟨hne, -⟩
  · exact h
  · exact absurd hst hne
  · exact absurd hst hne

/-- The state that a word leaves, by what the word does in the state that takes it. -/
inductive WordEffect (w : Word) (s : State) : State → Prop
  /-- In ERR the word is discarded (R123). -/
  | discarded (hst : s.st = .err) : WordEffect w s s
  /-- One of the five faults is raised (R113, R121); a full frame's END is none of them (R106). -/
  | faulted (c : ErrCode) (hst : s.st ≠ .err) (hc : c ≠ .none)
      (hend : decode w = .ok .endFrame → s.st = .pack → full s = false) : WordEffect w s (raiseFault c s)
  /-- START opens a frame (R93). -/
  | opened (a b : Operand) (hst : s.st = .idle) (hw : decode w = .ok (.start a b)) : WordEffect w s (openFrame a b s)
  /-- PIXEL packs a pixel (R101). -/
  | packed (r g b : Operand) (hst : s.st = .pack) (hfull : full s = false) (hc : chansOk r g b = true)
      (hw : decode w = .ok (.pixel r g b)) : WordEffect w s (packPixel r g b s)
  /-- END closes the frame (R106). -/
  | finished (hst : s.st = .pack) (hfull : full s = true) (hw : decode w = .ok .endFrame) :
      WordEffect w s (finishFrame s)

/-- Everything a command word can do (R92), in one case analysis. -/
theorem wordEffect_of_takeWord {w : Word} {s s' : State} (h : takeWord w s = .next s') : WordEffect w s s' := by
  rcases takeWord_cases h with ⟨hst, rfl⟩ | ⟨hst, ⟨r, hw⟩, rfl⟩ | ⟨hst, i, hw, hi⟩
  · exact .discarded hst
  · exact .faulted _ hst (by decide) (by simp [hw])
  · cases i with
    | start a b =>
      rcases execStart_cases hi with ⟨herr, -⟩ | ⟨-, rfl⟩ | ⟨hidle, rfl⟩
      · exact absurd herr hst
      · exact .faulted _ hst (by decide) (by simp [hw])
      · exact .opened a b hidle hw
    | pixel r g b =>
      rcases execPixel_cases hi with ⟨herr, -⟩ | ⟨-, rfl⟩ | ⟨-, -, rfl⟩ | ⟨-, -, -, rfl⟩ | ⟨hpack, hfull, hc, rfl⟩
      · exact absurd herr hst
      · exact .faulted _ hst (by decide) (by simp [hw])
      · exact .faulted _ hst (by decide) (by simp [hw])
      · exact .faulted _ hst (by decide) (by simp [hw])
      · exact .packed r g b hpack hfull hc hw
    | endFrame =>
      rcases execEnd_cases hi with ⟨herr, -⟩ | ⟨hidle, rfl⟩ | ⟨-, hfull, rfl⟩ | ⟨hpack, hfull, rfl⟩
      · exact absurd herr hst
      · exact .faulted _ hst (by decide) (by simp [hidle])
      · exact .faulted _ hst (by decide) fun _ _ => hfull
      · exact .finished hpack hfull hw

theorem appendAll_cons (v : Sample) (vs : List Sample) (s : State) :
    appendAll (v :: vs) s = appendAll vs (append10 v s) := rfl

/-! The fields of those states -/

section
variable (r g b : Operand) (s : State)

@[simp] theorem packPixel_st : (packPixel r g b s).st = s.st := by simp [packPixel, appendAll]
@[simp] theorem packPixel_errcode : (packPixel r g b s).errcode = s.errcode := by simp [packPixel, appendAll]
@[simp] theorem packPixel_width : (packPixel r g b s).width = s.width := by simp [packPixel, appendAll]
@[simp] theorem packPixel_height : (packPixel r g b s).height = s.height := by simp [packPixel, appendAll]
@[simp] theorem packPixel_x : (packPixel r g b s).x = if s.x + 1 = s.width then 0 else s.x + 1 := by
  simp [packPixel, appendAll]
@[simp] theorem packPixel_y : (packPixel r g b s).y = if s.x + 1 = s.width then s.y + 1 else s.y := by
  simp [packPixel, appendAll]
@[simp] theorem packPixel_earlier : (packPixel r g b s).earlier = s.earlier := by simp [packPixel, appendAll]
@[simp] theorem packPixel_input : (packPixel r g b s).input = s.input := by simp [packPixel, appendAll]

theorem packPixel_bitpos_toNat : (packPixel r g b s).bitpos.toNat = (s.bitpos.toNat + 30) % 2 ^ 37 := by
  simp [packPixel, appendAll, Nat.add_assoc]

@[simp] theorem finishFrame_st : (finishFrame s).st = .idle := by simp [finishFrame]
@[simp] theorem finishFrame_errcode : (finishFrame s).errcode = s.errcode := by simp [finishFrame]
@[simp] theorem finishFrame_width : (finishFrame s).width = s.width := by simp [finishFrame]
@[simp] theorem finishFrame_height : (finishFrame s).height = s.height := by simp [finishFrame]
@[simp] theorem finishFrame_x : (finishFrame s).x = s.x := by simp [finishFrame]
@[simp] theorem finishFrame_y : (finishFrame s).y = s.y := by simp [finishFrame]
@[simp] theorem finishFrame_bitpos : (finishFrame s).bitpos = s.bitpos := by simp [finishFrame]
@[simp] theorem finishFrame_outcnt :
    (finishFrame s).outcnt = if s.npend = 0#3 then s.outcnt else s.outcnt + 1 := by simp [finishFrame]
@[simp] theorem finishFrame_acc : (finishFrame s).acc = 0 := by simp [finishFrame]
@[simp] theorem finishFrame_npend : (finishFrame s).npend = 0 := by simp [finishFrame]
@[simp] theorem finishFrame_earlier : (finishFrame s).earlier = s.earlier := by simp [finishFrame]
@[simp] theorem finishFrame_input : (finishFrame s).input = s.input := by simp [finishFrame]

/-- The bytes that PADFLUSH emits (R85). -/
def flushedBytes (s : State) : List Byte := if s.npend = 0#3 then [] else [s.acc]

@[simp] theorem finishFrame_trace : (finishFrame s).trace = s.trace ++ (flushedBytes s).map .byte ++ [.done] := by
  by_cases h : s.npend = 0#3 <;> simp [finishFrame, flushedBytes, h]

end

end Sys2Proof.Machine

namespace Sys2Proof.Machine

/-! # The serializer -/

@[simp] theorem append10_trace (v : Sample) (s : State) :
    (append10 v s).trace = s.trace ++ (appendedBytes s v).map .byte := by
  rw [append10_eq]

@[simp] theorem append10_outcnt (v : Sample) (s : State) :
    (append10 v s).outcnt = s.outcnt + BitVec.ofNat 34 ((s.npend.toNat + 10) / 8) := by
  rw [append10_eq, appendedBytes_length]

@[simp] theorem append10_acc (v : Sample) (s : State) :
    (append10 v s).acc = leftAligned (bitsInHand s.acc s.npend.toNat v) ((s.npend.toNat + 2) % 8) := by
  rw [append10_eq]

@[simp] theorem append10_npend_toNat (v : Sample) (s : State) :
    (append10 v s).npend.toNat = (s.npend.toNat + 2) % 8 := by
  rw [append10_eq]
  simp

theorem append10_bitpos_toNat (v : Sample) (s : State) :
    (append10 v s).bitpos.toNat = (s.bitpos.toNat + 10) % 2 ^ 37 := by
  simp

@[simp] theorem pendingBits_length (s : State) : (pendingBits s).length = s.npend.toNat := by
  have hp := s.npend.isLt
  simp [pendingBits]
  omega

/-- What is left-aligned leaves nothing below it (R23, I8). -/
theorem leftAligned_shiftLeft (t : BitVec 17) {r : Nat} (hr : r ≤ 8) : leftAligned t r <<< r = 0 := by
  rw [leftAligned, ← BitVec.shiftLeft_add, Nat.sub_add_cancel hr]
  exact BitVec.shiftLeft_eq_zero le_rfl

/-- T of R80 bit by bit: the sample in the low ten bits, the pending bits above them. -/
theorem bitsInHand_getElem (acc : Byte) {p : Nat} (v : Sample) (hp : p < 8) (i : Nat) (hi : i < 17) :
    (bitsInHand acc p v)[i] = if i < 10 then v.getLsbD i else acc.getLsbD (8 - p + (i - 10)) := by
  rw [← BitVec.getLsbD_eq_getElem, bitsInHand_eq_append acc p v hp, BitVec.getLsbD_append]
  simp only [BitVec.getLsbD_setWidth, BitVec.getLsbD_ushiftRight, show i - 10 < 7 by omega, decide_true, Bool.true_and]

/-- APPEND10 inserts no bit and loses none: the bytes it emits and the bits it leaves pending are the bits that were
pending and then the sample's (R83), whatever NPEND is. -/
theorem append10_bits (v : Sample) (s : State) :
    (appendedBytes s v).flatMap byteBits ++ pendingBits (append10 v s) = pendingBits s ++ sampleBits v := by
  have hp : s.npend.toNat < 8 := s.npend.isLt
  simp only [pendingBits, append10_acc, append10_npend_toNat, appendedBytes, leftAligned]
  have hbit := bitsInHand_getElem s.acc v hp
  generalize s.npend.toNat = p at *
  interval_cases p <;> simp [byteBits_eq, sampleBits_eq, hbit]

/-- I6 to I8 of R31: what the serializer's registers say of each other. -/
structure SerializerOk (s : State) : Prop where
  pending : s.npend.toNat = s.bitpos.toNat % 8
  counted : s.outcnt.toNat = s.bitpos.toNat / 8
  aligned : s.acc <<< s.npend.toNat = 0

theorem SerializerOk.append10 {s : State} (h : SerializerOk s) (v : Sample) : SerializerOk (append10 v s) where
  pending := by
    have hp := h.pending
    rw [append10_npend_toNat, append10_bitpos_toNat]
    omega
  counted := by
    obtain ⟨hp, hc, -⟩ := h
    have := s.bitpos.isLt
    rw [append10_bitpos_toNat, append10_outcnt, BitVec.toNat_add, BitVec.toNat_ofNat]
    omega
  aligned := by
    rw [append10_npend_toNat, append10_acc]
    exact leftAligned_shiftLeft _ (by omega)

theorem SerializerOk.appendAll {s : State} (h : SerializerOk s) (vs : List Sample) :
    SerializerOk (appendAll vs s) := by
  induction vs generalizing s with
  | nil => exact h
  | cons v vs ih => exact ih (h.append10 v)

/-- R89 from any state: the bytes that go out and the bits left pending are the bits that were pending and then the
samples', in order. -/
theorem appendAll_emits (vs : List Sample) (s : State) :
    ∃ bs : List Byte, (appendAll vs s).trace = s.trace ++ bs.map .byte ∧
      bs.flatMap byteBits ++ pendingBits (appendAll vs s) = pendingBits s ++ vs.flatMap sampleBits := by
  induction vs generalizing s with
  | nil => exact ⟨[], by simp [appendAll]⟩
  | cons v vs ih =>
    obtain ⟨bs, htrace, hbits⟩ := ih (append10 v s)
    refine ⟨appendedBytes s v ++ bs, by simp [appendAll_cons, htrace], ?_⟩
    calc (appendedBytes s v ++ bs).flatMap byteBits ++ pendingBits (Machine.appendAll (v :: vs) s)
        = (appendedBytes s v).flatMap byteBits ++ (pendingBits (append10 v s) ++ vs.flatMap sampleBits) := by
          simp [appendAll_cons, ← hbits]
      _ = pendingBits s ++ (v :: vs).flatMap sampleBits := by
          rw [← List.append_assoc, append10_bits]
          simp

/-- PADFLUSH's byte is the pending bits and zeros below them (R85, R86). -/
theorem byteBits_acc {s : State} (h : s.acc <<< s.npend.toNat = 0) :
    byteBits s.acc = pendingBits s ++ List.replicate (8 - s.npend.toNat) false := by
  have hp : s.npend.toNat < 8 := s.npend.isLt
  have hbit : ∀ (i : Nat) (hi : i < 8), s.npend.toNat + i < 8 → s.acc[i] = false := by
    intro i hi hlow
    simpa [hlow] using congrArg (·.getLsbD (s.npend.toNat + i)) h
  simp only [pendingBits, byteBits_eq]
  generalize s.npend.toNat = p at *
  interval_cases p <;> simp [hbit]

end Sys2Proof.Machine

namespace Sys2Proof.Machine

/-! # The stream of one more pixel, and the bytes of a whole frame -/

theorem pixelOk_iff (p : Pixel) :
    pixelOk p = true ↔ chanOk p.r = true ∧ chanOk p.g = true ∧ chanOk p.b = true := by
  simp [pixelOk, chansOk, and_assoc]

/-- The bits of a legal operand's sample are those of four times the operand (R40, R75). -/
theorem sampleBits_sampleOf {a : Operand} (h : chanOk a = true) :
    sampleBits (sampleOf a) = (List.range 10).map fun j => (4 * a.toNat).testBit (9 - j) := by
  rw [← sampleOf_toNat h]
  rfl

/-- The fields of the last pixel of a list in its stream (R40). -/
theorem streamBit_last (ps : List Pixel) (p : Pixel) {j : Nat} (hj : j < 30) :
    streamBit (ps ++ [p]) (30 * ps.length + j) = (4 * (channelAt p (j / 10)).toNat).testBit (9 - j % 10) := by
  have hpixel : (30 * ps.length + j) / 30 = ps.length := by omega
  have hbit : (30 * ps.length + j) % 10 = j % 10 := by omega
  simp [streamBit, hpixel, hbit, Nat.mod_eq_of_lt hj]

/-- A legal pixel adds the bits of its three samples to the stream (R40, R67). -/
theorem streamPrefix_snoc (ps : List Pixel) {p : Pixel} (hp : pixelOk p = true) :
    streamPrefix (ps ++ [p]) (30 * ps.length + 30) =
      streamPrefix ps (30 * ps.length) ++ [sampleOf p.r, sampleOf p.g, sampleOf p.b].flatMap sampleBits := by
  obtain ⟨hr, hg, hb⟩ := (pixelOk_iff p).1 hp
  have hlast : (List.range 30).map (fun j => streamBit (ps ++ [p]) (30 * ps.length + j)) =
      (List.range 30).map fun j => (4 * (channelAt p (j / 10)).toNat).testBit (9 - j % 10) :=
    List.map_congr_left fun j hj => streamBit_last ps p (List.mem_range.1 hj)
  rw [streamPrefix_add, streamPrefix_append _ _ le_rfl, hlast]
  simp only [List.flatMap_cons, List.flatMap_nil, sampleBits_sampleOf hr, sampleBits_sampleOf hg,
    sampleBits_sampleOf hb]
  rfl

/-- The bytes of PACK hold the stream and, past its end, zeros (R41, R42). -/
theorem packBytes_bits (ps : List Pixel) :
    (packBytes ps).flatMap byteBits = streamPrefix ps (8 * outputLength ps.length) :=
  flatMap_byteBits_range (streamBit ps) _

theorem outputLength_eq (n : Nat) : outputLength n = (30 * n + 7) / 8 := rfl

/-- The stream followed by zeros is the stream read past its end (R42). -/
theorem streamPrefix_append_zeros (ps : List Pixel) (k : Nat) :
    streamPrefix ps (30 * ps.length) ++ List.replicate k false = streamPrefix ps (30 * ps.length + k) := by
  have hzeros : (List.range k).map (fun j => streamBit ps (30 * ps.length + j)) = List.replicate k false :=
    List.eq_replicate_iff.2 ⟨by simp, by simp [streamBit_past]⟩
  rw [streamPrefix_add, hzeros]

/-- Once the stream of `ps` has gone in, the bytes emitted and the flushed byte are the bytes of PACK (R86, R108). -/
theorem emitted_append_flushed {s : State} {bs : List Byte} {ps : List Pixel} (haligned : s.acc <<< s.npend.toNat = 0)
    (hbits : bs.flatMap byteBits ++ pendingBits s = streamPrefix ps (30 * ps.length)) :
    bs ++ flushedBytes s = packBytes ps := by
  have hp : s.npend.toNat < 8 := s.npend.isLt
  have hlen : bs.length * 8 + s.npend.toNat = 30 * ps.length := by
    simpa using congrArg List.length hbits
  apply flatMap_byteBits_injective
  rw [packBytes_bits, outputLength_eq, List.flatMap_append]
  by_cases hn : s.npend = 0#3
  · have hn0 : s.npend.toNat = 0 := by simp [hn]
    have hnil : pendingBits s = [] := List.length_eq_zero_iff.1 (by simp [hn])
    simp only [flushedBytes, hn, if_true, List.flatMap_nil]
    rw [← hnil, hbits]
    congr 1
    omega
  · have hn0 : s.npend.toNat ≠ 0 := fun h => hn (BitVec.eq_of_toNat_eq h)
    simp only [flushedBytes, hn, if_false, List.flatMap_singleton]
    rw [byteBits_acc haligned, ← List.append_assoc, hbits, streamPrefix_append_zeros]
    congr 1
    omega

end Sys2Proof.Machine

namespace Sys2Proof.Machine

/-! # What keeps the invariant (R31 to R33) -/

/-! Completed output -/

theorem completedOutput_nil : CompletedOutput [] := ⟨[], by simp, rfl⟩

theorem CompletedOutput.append_frame {t : List OutItem} (h : CompletedOutput t) {f : Frame} (hf : f.legal) :
    CompletedOutput (t ++ f.items) := by
  obtain ⟨fs, hlegal, rfl⟩ := h
  refine ⟨fs ++ [f], fun g hg => ?_, by simp⟩
  rcases List.mem_append.1 hg with hg | hg
  · exact hlegal g hg
  · exact List.mem_singleton.1 hg ▸ hf

/-- Between two frames the output is that of completed frames (R32). -/
theorem BetweenFrames.completedOutput {s : State} (h : BetweenFrames s) : CompletedOutput s.trace := by
  rcases h.last with ⟨-, -, -, -, -, -, htrace⟩ | ⟨t, f, ht, hf, htrace, -⟩
  · exact htrace ▸ completedOutput_nil
  · exact htrace ▸ ht.append_frame hf

/-! Reset and fault entry -/

/-- The registers and the trace after reset are those between frames, whatever was emitted before and is still to come
(R32, R34). -/
theorem reset_inv (earlier : List (List OutItem)) (input : List HostMove) :
    Inv { State.reset with earlier := earlier, input := input } where
  packed h := by simp [State.reset] at h
  idle _ := ⟨rfl, rfl, rfl, .inl ⟨rfl, rfl, rfl, rfl, rfl, rfl, rfl⟩⟩
  failed h := by simp [State.reset] at h

theorem OpenFrame.raiseFault {s : State} (h : OpenFrame s) (c : ErrCode) : OpenFrame (raiseFault c s) :=
  { i1 := h.i1, i2 := h.i2, i3 := h.i3, i4 := h.i4, i5 := h.i5, i6 := h.i6, i7 := h.i7, i8 := h.i8, i10 := h.i10 }

theorem BetweenFrames.raiseFault {s : State} (h : BetweenFrames s) (c : ErrCode) : BetweenFrames (raiseFault c s) :=
  { acc := h.acc, npend := h.npend, last := h.last }

/-- Outside ERR the registers are those of an open frame or of the time between frames, and fault entry keeps them. -/
theorem Inv.raiseFault {s : State} (h : Inv s) {c : ErrCode} (hc : c ≠ .none) (hst : s.st ≠ .err) :
    Inv (raiseFault c s) where
  packed hp := by simp at hp
  idle hi := by simp at hi
  failed _ := by
    refine ⟨hc, ?_⟩
    cases hs : s.st with
    | idle => exact .inr ((h.idle hs).2.raiseFault c)
    | pack => exact .inl ((h.packed hs).2.raiseFault c)
    | err => exact absurd hs hst

/-! START -/

theorem BetweenFrames.openFrame {s : State} (h : BetweenFrames s) (w ht : Operand) :
    OpenFrame (openFrame w ht s) where
  i1 _ := ⟨rfl, rfl⟩
  i2 hw := (BitVec.pos_iff_ne_zero _).2 hw
  i3 := Nat.zero_le _
  i4 _ _ := rfl
  i5 := by simp
  i6 := by simp
  i7 := by simp
  i8 := by simp
  i10 := ⟨s.trace, [], [], h.completedOutput, by simp, by simp, by simp, by simp, by simp [pendingBits, streamPrefix]⟩

theorem Inv.openFrame {s : State} (h : Inv s) (w ht : Operand) (hst : s.st = .idle) : Inv (openFrame w ht s) where
  packed _ := ⟨(h.idle hst).1, (h.idle hst).2.openFrame w ht⟩
  idle hi := by simp at hi
  failed hf := by simp at hf

/-! PIXEL -/

theorem OpenFrame.serializerOk {s : State} (h : OpenFrame s) : SerializerOk s := ⟨h.i6, h.i7, h.i8⟩

/-- A frame has fewer than 2 ^ 32 pixels (R20). -/
theorem width_mul_height_le (w h : Operand) : w.toNat * h.toNat ≤ 65535 * 65535 :=
  Nat.mul_le_mul (Nat.le_of_lt_succ w.isLt) (Nat.le_of_lt_succ h.isLt)

/-- How a successful PIXEL moves the cursor, in integers (R18, R19, R102). -/
theorem OpenFrame.cursor_cases {s : State} (h : OpenFrame s) (hfull : full s = false) (r g b : Operand) :
    s.y.toNat + 1 ≤ s.height.toNat ∧
      ((s.x.toNat + 1 = s.width.toNat ∧ (packPixel r g b s).x = 0 ∧ (packPixel r g b s).y.toNat = s.y.toNat + 1) ∨
        (s.x.toNat + 1 < s.width.toNat ∧ (packPixel r g b s).x.toNat = s.x.toNat + 1 ∧
          (packPixel r g b s).y = s.y)) := by
  obtain ⟨hw, hy⟩ := (full_eq_false_iff s).1 hfull
  have hx := h.i2 hw
  have hy' := h.i3
  refine ⟨by bv_omega, ?_⟩
  by_cases hlast : s.x + 1 = s.width
  · refine .inl ⟨by bv_omega, by rw [packPixel_x, if_pos hlast], ?_⟩
    rw [packPixel_y, if_pos hlast]
    bv_omega
  · refine .inr ⟨by bv_omega, ?_, by rw [packPixel_y, if_neg hlast]⟩
    rw [packPixel_x, if_neg hlast]
    bv_omega

/-- A successful PIXEL counts one pixel (R20). -/
theorem OpenFrame.count_packPixel {s : State} (h : OpenFrame s) (hfull : full s = false) (r g b : Operand) :
    (packPixel r g b s).y.toNat * s.width.toNat + (packPixel r g b s).x.toNat =
      s.y.toNat * s.width.toNat + s.x.toNat + 1 := by
  obtain ⟨-, ⟨hw, hx, hy⟩ | ⟨-, hx, hy⟩⟩ := h.cursor_cases hfull r g b
  · rw [hx, hy, Nat.succ_mul]
    simp
    omega
  · rw [hx, hy]
    omega

/-- BITPOS is wide enough for the frame's bits (R20, R21). -/
theorem OpenFrame.bitpos_packPixel {s : State} (h : OpenFrame s) (hfull : full s = false) (r g b : Operand) :
    (packPixel r g b s).bitpos.toNat = s.bitpos.toNat + 30 := by
  obtain ⟨hy, hx⟩ := h.cursor_cases hfull r g b
  have hrow : (s.y.toNat + 1) * s.width.toNat ≤ s.height.toNat * s.width.toNat := Nat.mul_le_mul_right _ hy
  have harea := width_mul_height_le s.height s.width
  have hbits := h.i5
  rw [Nat.succ_mul] at hrow
  rw [packPixel_bitpos_toNat, Nat.mod_eq_of_lt (by omega)]

@[simp] theorem pendingBits_advanceCursor (s : State) : pendingBits (advanceCursor s) = pendingBits s := by
  simp [pendingBits]

/-- The serializer's side of a successful PIXEL (R101). -/
theorem SerializerOk.packPixel {s : State} (h : SerializerOk s) (r g b : Operand) :
    SerializerOk (packPixel r g b s) := by
  obtain ⟨hp, hc, ha⟩ := h.appendAll [sampleOf r, sampleOf g, sampleOf b]
  constructor <;> simpa [Machine.packPixel]

theorem packPixel_emits (r g b : Operand) (s : State) :
    ∃ bs : List Byte, (packPixel r g b s).trace = s.trace ++ bs.map .byte ∧
      bs.flatMap byteBits ++ pendingBits (packPixel r g b s) =
        pendingBits s ++ [sampleOf r, sampleOf g, sampleOf b].flatMap sampleBits := by
  simpa [packPixel] using appendAll_emits [sampleOf r, sampleOf g, sampleOf b] s

/-- I10 says how many bytes have gone out (R22): its bits are BITPOS many, less than a byte of them pending. -/
theorem length_of_bits {s : State} (h : SerializerOk s) {bs : List Byte} {ps : List Pixel}
    (hbits : bs.flatMap byteBits ++ pendingBits s = streamPrefix ps s.bitpos.toNat) : bs.length = s.outcnt.toNat := by
  have hlen : bs.length * 8 + s.npend.toNat = s.bitpos.toNat := by simpa using congrArg List.length hbits
  obtain ⟨hp, hc, -⟩ := h
  omega

/-- I10 after a successful PIXEL: the stream has one more pixel, and no bit is lost or inserted (R83, R89). -/
theorem OpenFrame.emitted_packPixel {s : State} (h : OpenFrame s) {r g b : Operand} (hfull : full s = false)
    (hc : chansOk r g b = true) :
    ∃ (t : List OutItem) (bs : List Byte) (ps : List Pixel), CompletedOutput t ∧
      (packPixel r g b s).trace = t ++ bs.map .byte ∧ ps.length = s.y.toNat * s.width.toNat + s.x.toNat + 1 ∧
      (∀ p ∈ ps, pixelOk p = true) ∧
      bs.flatMap byteBits ++ pendingBits (packPixel r g b s) = streamPrefix ps (packPixel r g b s).bitpos.toNat := by
  obtain ⟨t, bs, ps, ht, htrace, -, hlen, hok, hbits⟩ := h.i10
  obtain ⟨bs', htrace', hbits'⟩ := packPixel_emits r g b s
  have hpos : s.bitpos.toNat = 30 * ps.length := by rw [h.i5, hlen]
  have hpix : pixelOk ⟨r, g, b⟩ = true := hc
  refine ⟨t, bs ++ bs', ps ++ [⟨r, g, b⟩], ht, by simp [htrace', htrace], by simp [hlen], ?_, ?_⟩
  · intro p hp
    rcases List.mem_append.1 hp with hp | hp
    · exact hok p hp
    · exact List.mem_singleton.1 hp ▸ hpix
  · rw [h.bitpos_packPixel hfull, hpos, streamPrefix_snoc ps hpix, ← hpos, ← hbits, List.flatMap_append,
      List.append_assoc, hbits', List.append_assoc]

theorem OpenFrame.packPixel {s : State} (h : OpenFrame s) {r g b : Operand} (hfull : full s = false)
    (hc : chansOk r g b = true) : OpenFrame (packPixel r g b s) := by
  have hw : s.width ≠ 0#16 := ((full_eq_false_iff s).1 hfull).1
  have hser := h.serializerOk.packPixel r g b
  have hcount := h.count_packPixel hfull r g b
  obtain ⟨hy, hcursor⟩ := h.cursor_cases hfull r g b
  obtain ⟨t, bs, ps, ht, htrace, hlen, hok, hbits⟩ := h.emitted_packPixel hfull hc
  refine
    { i1 := fun h0 => absurd (by simpa using h0) hw
      i2 := fun _ => ?_
      i3 := ?_
      i4 := fun hend _ => ?_
      i5 := ?_
      i6 := hser.pending
      i7 := hser.counted
      i8 := hser.aligned
      i10 := ⟨t, bs, ps, ht, htrace, length_of_bits hser hbits, ?_, hok, hbits⟩ }
  · rw [packPixel_width, BitVec.lt_def]
    rcases hcursor with ⟨hx, hx', -⟩ | ⟨hx, hx', -⟩
    · rw [hx', ← hx]; exact Nat.succ_pos _
    · omega
  · rw [packPixel_height, BitVec.le_def]
    rcases hcursor with ⟨-, -, hy'⟩ | ⟨-, -, hy'⟩
    · omega
    · rw [hy']; omega
  · rcases hcursor with ⟨-, hx', -⟩ | ⟨-, -, hy'⟩
    · exact hx'
    · rw [hy', packPixel_height] at hend
      rw [hend] at hy
      omega
  · rw [h.bitpos_packPixel hfull, packPixel_width, hcount, h.i5]
    ring
  · rw [hlen, packPixel_width, hcount]

theorem Inv.packPixel {s : State} (h : Inv s) {r g b : Operand} (hst : s.st = .pack) (hfull : full s = false)
    (hc : chansOk r g b = true) : Inv (packPixel r g b s) where
  packed _ := ⟨by simpa using (h.packed hst).1, (h.packed hst).2.packPixel hfull hc⟩
  idle hi := by simp [hst] at hi
  failed hf := by simp [hst] at hf

/-! END -/

/-- FULL says that the cursor stands at the frame's end: every pixel has been counted (R25, I4). -/
theorem OpenFrame.cursor_of_full {s : State} (h : OpenFrame s) (hfull : full s = true) :
    s.x = 0 ∧ s.y = (if s.width = 0#16 then 0 else s.height) ∧
      s.y.toNat * s.width.toNat + s.x.toNat = s.width.toNat * s.height.toNat := by
  by_cases hw : s.width = 0#16
  · obtain ⟨hx, hy⟩ := h.i1 hw
    simp [hw, hx, hy]
  · have hy : s.y = s.height := ((full_iff s).1 hfull).resolve_left hw
    have hx := h.i4 hy hw
    simp [hw, hx, hy, Nat.mul_comm]

/-- BITPOS ends at the frame's bit length (R21). -/
theorem OpenFrame.bitpos_of_full {s : State} (h : OpenFrame s) (hfull : full s = true) :
    s.bitpos.toNat = 30 * (s.width.toNat * s.height.toNat) := by
  rw [h.i5, (h.cursor_of_full hfull).2.2]

/-- After END, OUTCNT is the number of bytes that hold BITPOS bits (R48, R106). -/
theorem OpenFrame.outcnt_finishFrame {s : State} (h : OpenFrame s) (hfull : full s = true) :
    (finishFrame s).outcnt.toNat = (s.bitpos.toNat + 7) / 8 := by
  have hpos := h.bitpos_of_full hfull
  have harea := width_mul_height_le s.width s.height
  have hnpend := h.i6
  have hout := h.i7
  rw [finishFrame_outcnt]
  by_cases hn : s.npend = 0#3
  · rw [if_pos hn]
    have : s.npend.toNat = 0 := by simp [hn]
    omega
  · have : s.npend.toNat ≠ 0 := fun h0 => hn (BitVec.eq_of_toNat_eq h0)
    rw [if_neg hn, BitVec.toNat_add, show (1 : BitVec 34).toNat = 1 from rfl, Nat.mod_eq_of_lt (by omega)]
    omega

/-- A successful END completes a frame (R28, R106, R109): its bytes are those of PACK, and DONE follows them. -/
theorem OpenFrame.trace_finishFrame {s : State} (h : OpenFrame s) (hfull : full s = true) :
    ∃ (t : List OutItem) (f : Frame), CompletedOutput t ∧ f.legal ∧ f.width = s.width ∧ f.height = s.height ∧
      (finishFrame s).trace = t ++ f.items := by
  obtain ⟨t, bs, ps, ht, htrace, -, hlen, hok, hbits⟩ := h.i10
  have hpos : s.bitpos.toNat = 30 * ps.length := by rw [h.i5, hlen]
  have hbytes : bs ++ flushedBytes s = packBytes ps := emitted_append_flushed h.i8 (hpos ▸ hbits)
  refine ⟨t, ⟨s.width, s.height, ps⟩, ht, ⟨hlen.trans (h.cursor_of_full hfull).2.2, hok⟩, rfl, rfl, ?_⟩
  simp [Frame.items, htrace, ← hbytes]

theorem OpenFrame.finishFrame {s : State} (h : OpenFrame s) (hfull : full s = true) :
    BetweenFrames (finishFrame s) := by
  obtain ⟨t, f, ht, hf, hwidth, hheight, htrace⟩ := h.trace_finishFrame hfull
  obtain ⟨hx, hy, -⟩ := h.cursor_of_full hfull
  refine ⟨finishFrame_acc s, finishFrame_npend s, .inr ⟨t, f, ht, hf, htrace, ?_, ?_, ?_, ?_, ?_, ?_⟩⟩
  · rw [finishFrame_width, hwidth]
  · rw [finishFrame_height, hheight]
  · rw [finishFrame_x, hx]
  · rw [finishFrame_y, hwidth, hheight, hy]
  · rw [finishFrame_bitpos, hwidth, hheight, h.bitpos_of_full hfull]
  · rw [finishFrame_bitpos, h.outcnt_finishFrame hfull]

theorem Inv.finishFrame {s : State} (h : Inv s) (hst : s.st = .pack) (hfull : full s = true) :
    Inv (finishFrame s) where
  packed hp := by simp at hp
  idle _ := ⟨by simpa using (h.packed hst).1, (h.packed hst).2.finishFrame hfull⟩
  failed hf := by simp at hf

/-- Whatever a command word does keeps the invariant (R31 to R33). -/
theorem Inv.wordEffect {w : Word} {s s' : State} (h : Inv s) (e : WordEffect w s s') : Inv s' := by
  cases e with
  | discarded _ => exact h
  | faulted c hst hc _ => exact h.raiseFault hc hst
  | opened a b hst _ => exact h.openFrame a b hst
  | packed r g b hst hfull hc _ => exact h.packPixel hst hfull hc
  | finished hst hfull _ => exact h.finishFrame hst hfull

/-- Settles O41 (R31, R32, R33), by the cases of a step. -/
theorem stepKeepsInvariant : Obligations.StepKeepsInvariant := by
  intro s s' h e
  rcases step_cases e with ⟨-, rfl⟩ | ⟨w, rest, -, hword⟩ | ⟨rest, -, rfl⟩
  · exact h
  · exact (h.withInput rest).wordEffect (wordEffect_of_takeWord hword)
  · exact reset_inv _ _

end Sys2Proof.Machine

namespace Sys2Proof.Machine

/-! # The statements about the state (10_state.md) -/

/-- Settles O21 (R18, R19): the cursor's cases under the invariant. -/
theorem cursorNeverWraps : Obligations.CursorNeverWraps := by
  refine ⟨fun s w h hst => ?_, fun s r g b hst hy => ?_, fun s r g b hinv hst hfull hc => ?_⟩
  · exact ⟨_, execStart_of_idle w h hst, rfl, rfl⟩
  · exact execPixel_of_full r g b hst ((full_iff s).2 (.inr hy))
  · have hopen := (hinv.packed hst).2
    refine ⟨_, execPixel_of_legal hst hfull hc, ?_⟩
    obtain ⟨hy, ⟨hw, hx', hy'⟩ | ⟨hw, hx', hy'⟩⟩ := hopen.cursor_cases hfull r g b
    · exact ⟨fun _ => ⟨hx', hy'⟩, fun hne => absurd hw hne, by rw [hx']; exact Nat.zero_le _, by omega⟩
    · exact ⟨fun heq => absurd heq hw.ne, fun _ => ⟨hx', hy'⟩, by omega, by rw [hy']; omega⟩

/-- Settles O22 (R21): the writers of BITPOS, and its value for a full frame. -/
theorem bitCursorIsFrameLength : Obligations.BitCursorIsFrameLength := by
  refine ⟨fun s w h hst => ?_, fun s v => append10_bitpos v s, fun s r g b hinv hst hfull hc => ?_,
    fun s hinv hst hfull => ?_⟩
  · exact ⟨_, execStart_of_idle w h hst, rfl⟩
  · exact ⟨_, execPixel_of_legal hst hfull hc, (hinv.packed hst).2.bitpos_packPixel hfull r g b⟩
  · refine ⟨_, execEnd_of_full hst hfull, finishFrame_bitpos s, ?_⟩
    rw [finishFrame_bitpos, (hinv.packed hst).2.bitpos_of_full hfull, Nat.mul_comm]

/-- Every command keeps that ERRCODE is NONE exactly outside ERR (R15). -/
theorem errcode_iff_of_wordEffect {w : Word} {s s' : State} (h : s.errcode ≠ .none ↔ s.st = .err)
    (e : WordEffect w s s') : s'.errcode ≠ .none ↔ s'.st = .err := by
  cases e with
  | discarded _ => exact h
  | faulted c _ hc _ => simp [hc]
  | opened a b hst _ => simpa [hst] using h
  | packed r g b hst _ _ _ => simpa [hst] using h
  | finished hst _ _ => simpa [hst] using h

/-- The codes 6 and 7 are never held (R15, U4). -/
theorem errCode_code_lt (c : ErrCode) : c.code ≠ 6 ∧ c.code ≠ 7 := by
  cases c <;> decide

/-- Settles O35 (R15), by the cases of a step. -/
theorem errcodeHoldsFirstFault : Obligations.ErrcodeHoldsFirstFault := by
  refine ⟨by decide, fun s s' h e => ?_, fun s s' w hst e => ?_, fun s => errCode_code_lt s.errcode⟩
  · rcases step_cases e with ⟨-, rfl⟩ | ⟨w, rest, -, hword⟩ | ⟨rest, -, rfl⟩
    · exact h
    · exact errcode_iff_of_wordEffect (s := withInput rest s) h (wordEffect_of_takeWord hword)
    · simp
  · rw [takeWord_of_err hst e]

/-- What a command word appends to the output (R28): bytes, then DONE exactly when it is the END of a full frame. -/
theorem output_of_wordEffect {w : Word} {s s' : State} (e : WordEffect w s s') :
    s'.earlier = s.earlier ∧ ∃ (bs : List Byte) (d : Bool),
      s'.trace = s.trace ++ bs.map .byte ++ (if d then [.done] else []) ∧
      (d = true ↔ decode w = .ok .endFrame ∧ s.st = .pack ∧ full s = true) := by
  cases e with
  | discarded hst => exact ⟨rfl, [], false, by simp, by simp [hst]⟩
  | faulted c _ _ hend =>
    refine ⟨rfl, [], false, by simp, by simp, fun ⟨hw, hst, hfull⟩ => ?_⟩
    rw [hend hw hst] at hfull
    exact hfull
  | opened a b _ hw => exact ⟨rfl, [], false, by simp, by simp [hw]⟩
  | packed r g b _ _ _ hw =>
    obtain ⟨bs, htrace, -⟩ := packPixel_emits r g b s
    exact ⟨packPixel_earlier r g b s, bs, false, by simp [htrace], by simp [hw]⟩
  | finished hst hfull hw =>
    exact ⟨finishFrame_earlier s, flushedBytes s, true, by simp, by simp [hst, hfull, hw]⟩

/-- A reset keeps what the sink has been given (R134). -/
theorem history_assertReset (s : State) : history (assertReset s) = history s := by
  simp [history]

/-- Settles O39 (R28): only END's word adds a DONE, and only one word is END. -/
theorem doneMarksCompletedFrames : Obligations.DoneMarksCompletedFrames := by
  intro s s' e
  rcases step_cases e with ⟨hin, rfl⟩ | ⟨w, rest, hin, hword⟩ | ⟨rest, hin, rfl⟩
  · exact ⟨[], false, by simp, by simp [hin]⟩
  · obtain ⟨hearlier, bs, d, htrace, hd⟩ := output_of_wordEffect (wordEffect_of_takeWord hword)
    refine ⟨bs, d, by simp [history, hearlier, htrace], ?_⟩
    simpa [hin, decode_eq_endFrame_iff] using hd
  · refine ⟨[], false, ?_, by simp [hin]⟩
    rw [history_assertReset]
    simp [history]

/-- Settles O37 (R34): START writes every register but ERRCODE, which is NONE in both states. -/
theorem resetValues : Obligations.ResetValues := by
  refine ⟨rfl, rfl, rfl, rfl, rfl, rfl, fun s w h hst hcode => ?_⟩
  rw [exec_start_eq, exec_start_eq, execStart_of_idle w h hst, execStart_of_idle w h rfl]
  exact congrArg _ (State.ext_fields rfl hcode rfl rfl rfl rfl rfl rfl rfl rfl rfl rfl rfl)

/-- The lines are the bits of ST's code (R26, D23). -/
theorem lines_of_code (c : BlockState) :
    ((c == .err) = true ↔ c.code = 3) ∧ ((c == .pack) = true ↔ c.code = 1) ∧
      (c == .err) = c.code.getLsbD 1 ∧ (c == .pack) = (c.code.getLsbD 0 && !c.code.getLsbD 1) := by
  cases c <;> decide

/-- In ERR a step that is no reset leaves ST (R123, R124). -/
theorem st_err_of_step {s s' : State} (hst : s.st = .err) (hin : s.input.head? ≠ some .reset)
    (e : step s = .next s') : s'.st = .err := by
  rcases step_cases e with ⟨-, rfl⟩ | ⟨w, rest, -, hword⟩ | ⟨rest, hreset, -⟩
  · exact hst
  · rw [takeWord_of_err (s := withInput rest s) hst hword, withInput_st, hst]
  · exact absurd (by simp [hreset]) hin

theorem errLine_iff (s : State) : errLine s = true ↔ s.st = .err := beq_iff_eq

/-- Settles O38 (R26, R27): the lines by ST's code, and ERR sticky by the cases of a step. -/
theorem linesFollowState : Obligations.LinesFollowState := by
  refine ⟨fun s => ?_, fun s => (lines_of_code s.st).1, fun s => (lines_of_code s.st).2.1,
    fun s => (lines_of_code s.st).2.2.1, fun s => (lines_of_code s.st).2.2.2, rfl, rfl, rfl,
    fun c s => ⟨rfl, rfl⟩, fun s s' herr hin e => ?_⟩
  · refine ⟨?_, ?_, rfl, rfl, rfl, rfl, rfl, rfl, rfl, rfl⟩
    · cases hs : s.st <;> simp [statusPort, BlockState.code, hs]
    · cases hs : s.errcode <;> simp [statusPort, ErrCode.code, hs]
  · exact (errLine_iff s').2 (st_err_of_step ((errLine_iff s).1 herr) hin e)

/-- Settles O42 (R32, R34): reset's registers are those between frames, with an empty trace. -/
theorem resetHasInvariant : Obligations.ResetHasInvariant :=
  ⟨reset_inv [] [], fun _ ht => absurd ht List.not_mem_nil⟩

end Sys2Proof.Machine

namespace Sys2Proof.Machine

/-! # The statements about the two streams (20_memory.md) -/

/-! Every command and every word is answered with a next state (R39) -/

/-- A command in ERR is discarded (R123). -/
theorem exec_of_err (i : Instr) {s : State} (hst : s.st = .err) : exec i s = .next s := by
  cases i with
  | start w h => simp [execStart, hst]
  | pixel r g b => simp [execPixel, hst]
  | endFrame => simp [execEnd, hst]

/-- No command stops the machine, in any state (R39). -/
theorem exec_answers (i : Instr) (s : State) : ∃ s', exec i s = .next s' := by
  cases i with
  | start w h =>
    rw [exec_start_eq, execStart]
    split_ifs <;> exact ⟨_, rfl⟩
  | pixel r g b =>
    rw [exec_pixel_eq, execPixel]
    split_ifs <;> exact ⟨_, rfl⟩
  | endFrame =>
    rw [exec_endFrame_eq, execEnd]
    split_ifs <;> exact ⟨_, rfl⟩

/-- A word that decodes to a command runs it, in ERR too, where the command is discarded (R120, R123). -/
theorem takeWord_of_decode {w : Word} {i : Instr} (hw : decode w = .ok i) (s : State) : takeWord w s = exec i s := by
  by_cases hst : s.st = .err
  · simp [takeWord, hst, exec_of_err]
  · simp [takeWord, hst, hw]

/-- No word stops the machine, legal or not (R39, R115). -/
theorem takeWord_answers (w : Word) (s : State) : ∃ s', takeWord w s = .next s' := by
  cases hw : decode w with
  | ok i => rw [takeWord_of_decode hw]; exact exec_answers i s
  | error r =>
    by_cases hst : s.st = .err
    · exact ⟨s, by simp [takeWord, hst]⟩
    · exact ⟨raiseFault .illegalCommand s, by simp [takeWord, hst, hw]⟩

/-- No word touches the host's moves still to come (R39). -/
theorem WordEffect.input_eq {w : Word} {s s' : State} (e : WordEffect w s s') : s'.input = s.input := by
  cases e with
  | discarded => rfl
  | faulted c => exact raiseFault_input c s
  | opened a b => exact openFrame_input a b s
  | packed r g b => exact packPixel_input r g b s
  | finished => exact finishFrame_input s

/-- A step with a word as the host's next move takes it. -/
theorem step_of_word {s : State} {w : Word} {rest : List HostMove} (hin : s.input = .word w :: rest) :
    step s = takeWord w (withInput rest s) := by
  simp [step, takeMove, hin]

/-- Settles O46 (R39): by the host's next move. -/
theorem everyMoveIsTaken : Obligations.EveryMoveIsTaken := by
  intro s
  match hin : s.input with
  | [] => exact ⟨s, by simp [step, takeMove, hin], hin⟩
  | .word w :: rest =>
    obtain ⟨s', hword⟩ := takeWord_answers w (withInput rest s)
    exact ⟨s', by rw [step_of_word hin, hword], (wordEffect_of_takeWord hword).input_eq⟩
  | .reset :: rest => exact ⟨assertReset (withInput rest s), by simp [step, takeMove, hin], rfl⟩

/-- A table word of 64 bits is the word itself (R55). -/
theorem ofNat_toNat_mod (w : Word) : BitVec.ofNat 64 (w.toNat % 2 ^ 64) = w := by
  rw [Nat.mod_eq_of_lt w.isLt, BitVec.ofNat_toNat, BitVec.setWidth_eq]

theorem decodeTableWord_of_decode {w : Word} {i : Instr} (hw : decode w = .ok i) :
    decodeTableWord 64 w.toNat = some i := by
  rw [decodeTableWord, if_pos le_rfl, ofNat_toNat_mod, hw]

/-- Settles O48 (R39, R50, R61): both pushes put the word at the head of the host's moves. -/
theorem stepRunsDecodedCommand : Obligations.StepRunsDecodedCommand := by
  refine ⟨fun s w rest i hin hw => ?_, fun s w i hw => ⟨?_, decodeTableWord_of_decode hw⟩⟩
  · rw [step_of_word hin, takeWord_of_decode hw]
  · rw [State.withFetchWord, ofNat_toNat_mod, step_presentWord, takeWord_of_decode hw]

/-! How many bytes go out (R38, R46) -/

/-- The bytes of a list of samples: OUTCNT counts them (R22), and with the bits left pending they are as many bits as
were pending and as the samples have (R83). -/
theorem appendAll_counts (vs : List Sample) (s : State) :
    ∃ bs : List Byte, (appendAll vs s).trace = s.trace ++ bs.map .byte ∧
      (appendAll vs s).outcnt = s.outcnt + BitVec.ofNat 34 bs.length ∧
      8 * bs.length + (appendAll vs s).npend.toNat = s.npend.toNat + 10 * vs.length := by
  induction vs generalizing s with
  | nil => exact ⟨[], by simp [appendAll]⟩
  | cons v vs ih =>
    obtain ⟨bs, htrace, hcount, hbits⟩ := ih (append10 v s)
    refine ⟨appendedBytes s v ++ bs, by simp [appendAll_cons, htrace], ?_, ?_⟩
    · rw [appendAll_cons, hcount, append10_outcnt, List.length_append, appendedBytes_length, BitVec.ofNat_add,
        BitVec.add_assoc]
    · rw [append10_npend_toNat] at hbits
      rw [appendAll_cons, List.length_append, appendedBytes_length, List.length_cons]
      omega

/-- The same for a successful PIXEL (R46, R101). -/
theorem packPixel_counts (r g b : Operand) (s : State) :
    ∃ bs : List Byte, (packPixel r g b s).trace = s.trace ++ bs.map .byte ∧
      (packPixel r g b s).outcnt = s.outcnt + BitVec.ofNat 34 bs.length ∧
      8 * bs.length + (packPixel r g b s).npend.toNat = s.npend.toNat + 30 := by
  simpa [packPixel] using appendAll_counts [sampleOf r, sampleOf g, sampleOf b] s

theorem flushedBytes_length (s : State) : (flushedBytes s).length = if s.npend.toNat = 0 then 0 else 1 := by
  by_cases h : s.npend = 0#3
  · simp [flushedBytes, h]
  · have h0 : s.npend.toNat ≠ 0 := fun h0 => h (BitVec.eq_of_toNat_eq h0)
    simp [flushedBytes, h, h0]

/-- OUTCNT counts the byte that a successful END flushes (R22, R85). -/
theorem finishFrame_counts (s : State) :
    (finishFrame s).outcnt = s.outcnt + BitVec.ofNat 34 (flushedBytes s).length := by
  by_cases h : s.npend = 0#3 <;> simp [flushedBytes, h]

/-- Settles O40 (R22, R38): by what the word does. -/
theorem outcntCountsEmittedBytes : Obligations.OutcntCountsEmittedBytes := by
  intro s s' w e
  rw [step_presentWord] at e
  cases wordEffect_of_takeWord e with
  | discarded => exact ⟨[], [], by simp⟩
  | faulted c => exact ⟨[], [], by simp⟩
  | opened a b hst hw => exact ⟨[], [], by simp, .inl rfl, .inr ⟨rfl, rfl, rfl, hst, a, b, hw⟩⟩
  | packed r g b =>
    obtain ⟨bs, htrace, hcount, -⟩ := packPixel_counts r g b s
    exact ⟨bs, [], by simp [htrace], .inl rfl, .inl hcount⟩
  | finished => exact ⟨flushedBytes s, [.done], finishFrame_trace s, .inr rfl, .inl (finishFrame_counts s)⟩

/-- A word that leaves ST = ERR emits nothing and keeps the pending bits (R121, R123). -/
theorem WordEffect.keeps_of_err {w : Word} {s s' : State} (e : WordEffect w s s') (herr : s'.st = .err) :
    s'.trace = s.trace ∧ s'.npend = s.npend := by
  cases e with
  | discarded => exact ⟨rfl, rfl⟩
  | faulted c => exact ⟨raiseFault_trace c s, raiseFault_npend c s⟩
  | opened a b => simp at herr
  | packed r g b hst => simp [hst] at herr
  | finished => simp at herr

/-- R46's rows for PIXEL are the division of NPEND + 30 bits into bytes and pending bits. -/
theorem pixelRows_divide :
    ∀ row ∈ [(0, 3, 6), (6, 4, 4), (4, 4, 2), (2, 4, 0)], 8 * row.2.1 + row.2.2 = row.1 + 30 ∧ row.2.2 < 8 := by
  decide

/-- R46's rows for END are one byte for pending bits and none without. -/
theorem endRows_flush : ∀ row ∈ [(0, 0), (2, 1), (4, 1), (6, 1)], row.2 = if row.1 = 0 then 0 else 1 := by
  decide

/-- Settles O24 (R46): the table's rows are those of the serializer's count of bits. -/
theorem bytesPerCommand : Obligations.BytesPerCommand := by
  refine ⟨fun s w h hst => ?_, fun s r g b hst hfull hc p n q hrow hp => ?_, fun s hst hfull p n hrow hp => ?_,
    fun s s' w e herr => (wordEffect_of_takeWord e).keeps_of_err herr⟩
  · exact ⟨_, execStart_of_idle w h hst, rfl, rfl⟩
  · obtain ⟨bs, htrace, -, hbits⟩ := packPixel_counts r g b s
    obtain ⟨hdiv, hq⟩ := pixelRows_divide _ hrow
    have hlt := (packPixel r g b s).npend.isLt
    dsimp only at hdiv hq
    exact ⟨_, bs, execPixel_of_legal hst hfull hc, htrace, by omega, by omega⟩
  · refine ⟨_, flushedBytes s, execEnd_of_full hst hfull, finishFrame_trace s, ?_, finishFrame_npend s⟩
    rw [flushedBytes_length, hp]
    exact (endRows_flush _ hrow).symm

/-! The bytes of a stream, read bit by bit (R40 to R43) -/

/-- The padding of a frame is two bits for each pixel after the last whole group of four (R42, R70). -/
theorem padding_eq (n : Nat) : 8 * outputLength n - 30 * n = 2 * (n % 4) := by
  rw [outputLength_eq]
  omega

/-- Settles O29 (R42): past the stream's end the bytes hold zeros, and the padding's length is R42's table. -/
theorem paddingIsTrailingZeros : Obligations.PaddingIsTrailingZeros := by
  intro ps
  have htable : ∀ k < 4, 2 * k = [0, 2, 4, 6].getD k 0 := by decide
  have hlen : 30 * ps.length ≤ 8 * outputLength ps.length := by rw [outputLength_eq]; omega
  refine ⟨?_, ?_⟩
  · rw [packBytes_bits, streamPrefix_append_zeros, Nat.add_sub_cancel' hlen]
  · rw [padding_eq]
    exact htable _ (Nat.mod_lt _ (by decide))

/-- The bits of a byte of the output are the stream's, bit 7 first (R41). -/
theorem streamByte_getLsbD (ps : List Pixel) (m : Nat) {i : Nat} (hi : i < 8) :
    (streamByte ps m).getLsbD (7 - i) = streamBit ps (8 * m + i) := by
  have hbits : byteBits (streamByte ps m) = (List.range 8).map fun i => streamBit ps (8 * m + i) :=
    byteBits_byteOfBits _
  exact List.map_inj_left.1 hbits i (List.mem_range.2 hi)

/-- Two neighbouring bytes as one big-endian number hold sixteen bits of the stream in order (R43). -/
theorem streamBytes_getLsbD (ps : List Pixel) (m : Nat) {i : Nat} (hi : i < 16) :
    (streamByte ps m ++ streamByte ps (m + 1)).getLsbD (15 - i) = streamBit ps (8 * m + i) := by
  rw [BitVec.getLsbD_append]
  by_cases h : i < 8
  · rw [if_neg (by omega), show 15 - i - 8 = 7 - i by omega, streamByte_getLsbD ps m h]
  · rw [if_pos (by omega), show 15 - i = 7 - (i - 8) by omega, streamByte_getLsbD ps (m + 1) (by omega)]
    congr 1
    omega

theorem packBytes_getD (ps : List Pixel) {m : Nat} (hm : m < outputLength ps.length) :
    (packBytes ps).getD m 0 = streamByte ps m := by
  simp [packBytes, hm]

/-- A field of a pixel of the list lies in two bytes of the output (R43). -/
theorem field_in_output {l n f : Nat} (hn : n < l) (hf : f < 3) : (30 * n + 10 * f) / 8 + 1 < outputLength l := by
  rw [outputLength_eq]
  omega

/-- What is read back as a field is the ten stream bits from its start (R43). -/
theorem readField_getLsbD (ps : List Pixel) {n f j : Nat} (hn : n < ps.length) (hf : f < 3) (hj : j < 10) :
    (readField (packBytes ps) n f).getLsbD (9 - j) = streamBit ps (30 * n + 10 * f + j) := by
  have hin := field_in_output hn hf
  simp only [readField]
  rw [packBytes_getD ps (by omega), packBytes_getD ps hin, BitVec.getLsbD_extractLsb',
    show 6 - (30 * n + 10 * f) % 8 + (9 - j) = 15 - ((30 * n + 10 * f) % 8 + j) by omega,
    streamBytes_getLsbD ps _ (by omega), decide_eq_true (by omega), Bool.true_and]
  congr 1
  omega

/-- The ten stream bits of a field are those of four times its channel (R40). -/
theorem streamBit_field {ps : List Pixel} {n f j : Nat} {p : Pixel} (hp : ps[n]? = some p) (hf : f < 3) (hj : j < 10) :
    streamBit ps (30 * n + 10 * f + j) = (4 * (channelAt p f).toNat).testBit (9 - j) := by
  have hpixel : (30 * n + 10 * f + j) / 30 = n := by omega
  have hfield : (30 * n + 10 * f + j) % 30 / 10 = f := by omega
  have hbit : (30 * n + 10 * f + j) % 10 = j := by omega
  simp only [streamBit, hpixel, hp, hfield, hbit]

theorem chanOk_channelAt {p : Pixel} (hp : pixelOk p = true) (f : Nat) : chanOk (channelAt p f) = true := by
  obtain ⟨hr, hg, hb⟩ := (pixelOk_iff p).1 hp
  match f with
  | 0 => exact hr
  | 1 => exact hg
  | _ + 2 => exact hb

/-- A field read back is the sample that went in (R43, R75). -/
theorem readField_packBytes {ps : List Pixel} {n f : Nat} {p : Pixel} (hp : ps[n]? = some p) (hok : pixelOk p = true)
    (hf : f < 3) : readField (packBytes ps) n f = sampleOf (channelAt p f) := by
  obtain ⟨hn, -⟩ := List.getElem?_eq_some_iff.1 hp
  apply BitVec.eq_of_getLsbD_eq
  intro i hi
  calc (readField (packBytes ps) n f).getLsbD i
      = (readField (packBytes ps) n f).getLsbD (9 - (9 - i)) := by rw [Nat.sub_sub_self (Nat.le_of_lt_succ hi)]
    _ = (4 * (channelAt p f).toNat).testBit (9 - (9 - i)) := by
        rw [readField_getLsbD ps hn hf (by omega), streamBit_field hp hf (by omega)]
    _ = (sampleOf (channelAt p f)).getLsbD i := by
        rw [Nat.sub_sub_self (Nat.le_of_lt_succ hi), ← sampleOf_toNat (chanOk_channelAt hok f), BitVec.testBit_toNat]

/-- Settles O30 (R43): a field starts at an even bit of a byte, so that ten bits always span two bytes. -/
theorem fieldReadsBack : Obligations.FieldReadsBack := by
  intro ps n f p hp hok hf
  obtain ⟨hn, -⟩ := List.getElem?_eq_some_iff.1 hp
  refine ⟨?_, ?_, by omega, ?_⟩
  · rw [readField_packBytes hp hok hf, sampleOf_toNat (chanOk_channelAt hok f)]
  · simp only [List.mem_cons, List.not_mem_nil, or_false]
    omega
  · rw [packBytes_length]
    exact field_in_output hn hf

end Sys2Proof.Machine

namespace Sys2Proof

/-! # Decoding and encoding (30_encoding.md sections 1 to 3) -/

/-! The five fields of a word as numbers (R55, R61) -/

theorem opcodeField_toNat (w : Word) : (opcodeField w).toNat = w.toNat / 2 ^ 56 := by
  have := w.isLt
  rw [opcodeField, BitVec.extractLsb'_toNat, Nat.shiftRight_eq_div_pow]
  omega

theorem zeroField_toNat (w : Word) : (zeroField w).toNat = w.toNat / 2 ^ 48 % 2 ^ 8 := by
  rw [zeroField, BitVec.extractLsb'_toNat, Nat.shiftRight_eq_div_pow]

theorem fieldA_toNat (w : Word) : (fieldA w).toNat = w.toNat / 2 ^ 32 % 2 ^ 16 := by
  rw [fieldA, BitVec.extractLsb'_toNat, Nat.shiftRight_eq_div_pow]

theorem fieldB_toNat (w : Word) : (fieldB w).toNat = w.toNat / 2 ^ 16 % 2 ^ 16 := by
  rw [fieldB, BitVec.extractLsb'_toNat, Nat.shiftRight_eq_div_pow]

theorem fieldC_toNat (w : Word) : (fieldC w).toNat = w.toNat % 2 ^ 16 := by
  rw [fieldC, BitVec.extractLsb'_toNat, Nat.shiftRight_zero]

theorem formatC_toNat (op : BitVec 8) (a b c : Operand) :
    (formatC op a b c).toNat = op.toNat * 2 ^ 56 + a.toNat * 2 ^ 32 + b.toNat * 2 ^ 16 + c.toNat := by
  have hbc := (b ++ c).isLt
  have habc := (a ++ (b ++ c)).isLt
  have hzabc := (0#8 ++ (a ++ (b ++ c))).isLt
  rw [formatC, BitVec.toNat_append, ← Nat.shiftLeft_add_eq_or_of_lt hzabc, BitVec.toNat_append,
    ← Nat.shiftLeft_add_eq_or_of_lt habc, BitVec.toNat_append, ← Nat.shiftLeft_add_eq_or_of_lt hbc,
    BitVec.toNat_append, ← Nat.shiftLeft_add_eq_or_of_lt c.isLt]
  simp only [Nat.shiftLeft_eq, BitVec.toNat_ofNat]
  omega

@[simp] theorem opcodeField_formatC (op : BitVec 8) (a b c : Operand) : opcodeField (formatC op a b c) = op := by
  apply BitVec.eq_of_toNat_eq
  rw [opcodeField_toNat, formatC_toNat]
  bv_omega

@[simp] theorem zeroField_formatC (op : BitVec 8) (a b c : Operand) : zeroField (formatC op a b c) = 0#8 := by
  apply BitVec.eq_of_toNat_eq
  rw [zeroField_toNat, formatC_toNat]
  bv_omega

@[simp] theorem fieldA_formatC (op : BitVec 8) (a b c : Operand) : fieldA (formatC op a b c) = a := by
  apply BitVec.eq_of_toNat_eq
  rw [fieldA_toNat, formatC_toNat]
  bv_omega

@[simp] theorem fieldB_formatC (op : BitVec 8) (a b c : Operand) : fieldB (formatC op a b c) = b := by
  apply BitVec.eq_of_toNat_eq
  rw [fieldB_toNat, formatC_toNat]
  bv_omega

@[simp] theorem fieldC_formatC (op : BitVec 8) (a b c : Operand) : fieldC (formatC op a b c) = c := by
  apply BitVec.eq_of_toNat_eq
  rw [fieldC_toNat, formatC_toNat]
  bv_omega

/-- A word with a zero field of 0 is format C of its fields, and of no others (R55). -/
theorem eq_formatC_iff (w : Word) (op : BitVec 8) (a b c : Operand) :
    w = formatC op a b c ↔
      opcodeField w = op ∧ zeroField w = 0#8 ∧ fieldA w = a ∧ fieldB w = b ∧ fieldC w = c := by
  constructor
  · rintro rfl
    simp
  · rintro ⟨rfl, hzero, rfl, rfl, rfl⟩
    exact (Machine.formatC_fields hzero).symm

/-! The match and mask tests of the opcode table's rows (R57 to R59) -/

/-- Two words are the same when their fields are (R55). -/
theorem word_eq_iff (w v : Word) :
    w = v ↔ opcodeField w = opcodeField v ∧ zeroField w = zeroField v ∧ fieldA w = fieldA v ∧
      fieldB w = fieldB v ∧ fieldC w = fieldC v := by
  constructor
  · rintro rfl
    simp
  · rintro ⟨hop, hzero, hA, hB, hC⟩
    simp only [← BitVec.toNat_inj, opcodeField_toNat, zeroField_toNat, fieldA_toNat, fieldB_toNat, fieldC_toNat]
      at hop hzero hA hB hC ⊢
    omega

/-- A word under a mask is compared field by field. -/
theorem and_eq_iff (w mask v : Word) :
    w &&& mask = v ↔ opcodeField w &&& opcodeField mask = opcodeField v ∧
      zeroField w &&& zeroField mask = zeroField v ∧ fieldA w &&& fieldA mask = fieldA v ∧
      fieldB w &&& fieldB mask = fieldB v ∧ fieldC w &&& fieldC mask = fieldC v := by
  rw [word_eq_iff]
  simp only [opcodeField, zeroField, fieldA, fieldB, fieldC, BitVec.extractLsb'_and]

/-- START's match under its mask: A and B are free (R57). -/
theorem startRow_iff (w : Word) :
    w &&& 0xFFFF00000000FFFF = 0x0100000000000000 ↔
      opcodeField w = 0x01#8 ∧ zeroField w = 0#8 ∧ fieldC w = 0#16 := by
  rw [and_eq_iff]
  change _ &&& BitVec.allOnes 8 = 0x01#8 ∧ _ &&& BitVec.allOnes 8 = 0#8 ∧ _ &&& 0#16 = 0#16 ∧ _ &&& 0#16 = 0#16 ∧
    _ &&& BitVec.allOnes 16 = 0#16 ↔ _
  simp only [BitVec.and_allOnes, BitVec.and_zero, true_and]

/-- PIXEL's match under its mask: all operands are free (R58). -/
theorem pixelRow_iff (w : Word) :
    w &&& 0xFFFF000000000000 = 0x0200000000000000 ↔ opcodeField w = 0x02#8 ∧ zeroField w = 0#8 := by
  rw [and_eq_iff]
  change _ &&& BitVec.allOnes 8 = 0x02#8 ∧ _ &&& BitVec.allOnes 8 = 0#8 ∧ _ &&& 0#16 = 0#16 ∧ _ &&& 0#16 = 0#16 ∧
    _ &&& 0#16 = 0#16 ↔ _
  simp only [BitVec.and_allOnes, BitVec.and_zero, and_true]

/-- END's row is one word, whose opcode is 3 (R59). -/
theorem opcodeField_endWord : opcodeField 0x0300000000000000 = 0x03#8 := by rfl

/-! What a word decodes to (R61) -/

theorem decode_eq_start_iff (w : Word) (a b : Operand) :
    decode w = .ok (.start a b) ↔
      opcodeField w = 0x01#8 ∧ zeroField w = 0#8 ∧ fieldA w = a ∧ fieldB w = b ∧ fieldC w = 0#16 := by
  unfold decode
  split_ifs <;> simp_all

theorem decode_eq_pixel_iff (w : Word) (r g b : Operand) :
    decode w = .ok (.pixel r g b) ↔
      opcodeField w = 0x02#8 ∧ zeroField w = 0#8 ∧ fieldA w = r ∧ fieldB w = g ∧ fieldC w = b := by
  unfold decode
  split_ifs <;> simp_all

/-- Decoding and encoding are inverse to each other, both ways (R61). -/
theorem decode_eq_ok_iff (w : Word) (i : Instr) : decode w = .ok i ↔ w = encode i := by
  cases i with
  | start a b => rw [decode_eq_start_iff, encode, eq_formatC_iff]
  | pixel r g b => rw [decode_eq_pixel_iff, encode, eq_formatC_iff]
  | endFrame => exact Machine.decode_eq_endFrame_iff w

theorem decode_encode (i : Instr) : decode (encode i) = .ok i := (decode_eq_ok_iff _ i).2 rfl

theorem encode_injective : Function.Injective encode := fun i j h =>
  Except.ok.inj (by rw [← decode_encode i, h, decode_encode j])

/-- R61's pseudocode, over the fields. -/
theorem decode_toOption_fields (w : Word) :
    (decode w).toOption =
      if opcodeField w = 0x01#8 ∧ zeroField w = 0#8 ∧ fieldC w = 0#16 then some (.start (fieldA w) (fieldB w))
      else if opcodeField w = 0x02#8 ∧ zeroField w = 0#8 then some (.pixel (fieldA w) (fieldB w) (fieldC w))
      else if opcodeField w = 0x03#8 ∧ zeroField w = 0#8 ∧ fieldA w = 0#16 ∧ fieldB w = 0#16 ∧ fieldC w = 0#16 then
        some .endFrame
      else none := by
  unfold decode
  split_ifs <;> simp_all [Except.toOption]

/-- Settles O1 (R61): the fields are the pseudocode's integers, and decoding to `i` means being the encoding of `i`. -/
theorem decodingInvertsEncoding : Obligations.DecodingInvertsEncoding := by
  refine ⟨fun w => ?_, fun w => ⟨?_, ?_, ?_⟩, decode_encode, fun w i h => ((decode_eq_ok_iff w i).1 h).symm⟩
  · simp only [decode_toOption_fields, ← opcodeField_toNat, ← zeroField_toNat, ← fieldA_toNat, ← fieldB_toNat,
      ← fieldC_toNat, ← BitVec.toNat_inj, BitVec.toNat_ofNat, BitVec.ofNat_toNat, BitVec.setWidth_eq]
  · rw [startRow_iff, pixelRow_iff]
    rintro ⟨⟨h1, -⟩, h2, -⟩
    exact absurd (h1.symm.trans h2) (by decide)
  · rw [startRow_iff]
    rintro ⟨⟨h1, -⟩, rfl⟩
    exact absurd (opcodeField_endWord.symm.trans h1) (by decide)
  · rw [pixelRow_iff]
    rintro ⟨⟨h2, -⟩, rfl⟩
    exact absurd (opcodeField_endWord.symm.trans h2) (by decide)

/-- Settles O2 (R57, R58, R59): a row's match under its mask fixes the fields that its command fixes. -/
theorem opcodeTableRowsDecode : Obligations.OpcodeTableRowsDecode := by
  refine ⟨fun w a b => ?_, fun w r g b => ?_, fun w => ?_, fun w h => ?_, fun r g b => ?_, rfl, rfl, rfl⟩
  · rw [decode_eq_start_iff, startRow_iff, ← fieldA_toNat, ← fieldB_toNat, BitVec.toNat_inj, BitVec.toNat_inj]
    tauto
  · rw [decode_eq_pixel_iff, pixelRow_iff, ← fieldA_toNat, ← fieldB_toNat, ← fieldC_toNat, BitVec.toNat_inj,
      BitVec.toNat_inj, BitVec.toNat_inj]
    tauto
  · rw [decode_eq_ok_iff, show (0xFFFFFFFFFFFFFFFF : Word) = BitVec.allOnes 64 from rfl, BitVec.and_allOnes]
    rfl
  · rw [encode, formatC_toNat]
    rfl
  · rw [encode, formatC_toNat]
    rfl

/-! Illegal words (R62) -/

/-- The words of a family of commands are as many as the family (R61, R62). -/
theorem card_words {α : Type} {f : α → Instr} (hf : Function.Injective f) :
    Nat.card { w : Word // ∃ x, decode w = .ok (f x) } = Nat.card α := by
  have hrange : { w : Word | ∃ x, decode w = .ok (f x) } = Set.range (encode ∘ f) := by
    ext w
    exact exists_congr fun x => (decode_eq_ok_iff w (f x)).trans eq_comm
  exact (congrArg (fun S : Set Word => Nat.card S) hrange).trans
    (Nat.card_range_of_injective (encode_injective.comp hf))

theorem card_operand : Nat.card Operand = 2 ^ 16 := Nat.card_eq_of_equiv_fin FinEnum.equiv

theorem decode_toOption_eq_none_iff (w : Word) : (decode w).toOption = none ↔ ∃ r, decode w = .error r := by
  cases decode w <;> simp [Except.toOption]

/-- An illegal word outside ERR raises ILLEGAL_COMMAND (R62, R115). -/
theorem takeWord_of_illegal {w : Word} {s : Machine.State} (hw : (decode w).toOption = none) (hst : s.st ≠ .err) :
    Machine.takeWord w s = .next (Machine.raiseFault .illegalCommand s) := by
  obtain ⟨r, hr⟩ := (decode_toOption_eq_none_iff w).1 hw
  simp [Machine.takeWord, hst, hr]

/-- Settles O3 (R62): by R61's pseudocode, by what an illegal word does, and by counting the commands of each kind. -/
theorem illegalWordsRaiseOrAreDiscarded : Obligations.IllegalWordsRaiseOrAreDiscarded := by
  refine ⟨fun w => ?_, fun w s hw hst => takeWord_of_illegal hw hst, fun w s _ hst => ?_, ?_, ?_, ?_⟩
  · rw [decodingInvertsEncoding.1 w]
    split_ifs <;> simp <;> omega
  · simp [Machine.takeWord, hst]
  · have h := card_words (f := fun p : Operand × Operand => .start p.1 p.2) fun p q h => by
      simpa [Prod.ext_iff] using h
    simp only [Prod.exists] at h
    rw [h, Nat.card_prod, card_operand]
    norm_num
  · have h := card_words (f := fun p : Operand × Operand × Operand => .pixel p.1 p.2.1 p.2.2) fun p q h => by
      simpa [Prod.ext_iff] using h
    simp only [Prod.exists] at h
    rw [h, Nat.card_prod, Nat.card_prod, card_operand]
    norm_num
  · have h := card_words (f := fun _ : Unit => .endFrame) fun _ _ _ => rfl
    simpa using h

end Sys2Proof

namespace Sys2Proof.Machine

/-! # The assembler (30_encoding.md section 4) -/

theorem fitsOperand_iff (n : Nat) : fitsOperand n = true ↔ n ≤ 65535 := by
  simp [fitsOperand, Nat.lt_succ_iff]

theorem fitsPixel_iff (p : Nat × Nat × Nat) :
    fitsPixel p = true ↔ p.1 ≤ 65535 ∧ p.2.1 ≤ 65535 ∧ p.2.2 ≤ 65535 := by
  simp [fitsPixel, fitsOperand_iff, and_assoc]

theorem wellFormed_start_iff (w h : Nat) : (AsmLine.start w h).wellFormed = true ↔ w ≤ 65535 ∧ h ≤ 65535 := by
  simp [AsmLine.wellFormed, fitsOperand_iff]

theorem wellFormed_pixel_iff (r g b : Nat) :
    (AsmLine.pixel r g b).wellFormed = true ↔ r ≤ 65535 ∧ g ≤ 65535 ∧ b ≤ 65535 :=
  fitsPixel_iff (r, g, b)

theorem wellFormed_pack_iff (w h : Nat) (grid : List (Nat × Nat × Nat)) :
    (AsmLine.pack w h grid).wellFormed = true ↔
      w ≤ 65535 ∧ h ≤ 65535 ∧ grid.length = w * h ∧
        ∀ p ∈ grid, p.1 ≤ 65535 ∧ p.2.1 ≤ 65535 ∧ p.2.2 ≤ 65535 := by
  simp [AsmLine.wellFormed, fitsOperand_iff, fitsPixel_iff, and_assoc]

/-- A line is refused exactly when it is not well formed (R65, R66). -/
theorem assemble_isSome_iff (l : AsmLine) : (assemble l).isSome ↔ l.wellFormed = true := by
  unfold assemble
  cases hl : l.wellFormed
  · simp
  · cases l <;> simp

theorem assemble_start {w h : Nat} (hw : w ≤ 65535) (hh : h ≤ 65535) :
    assemble (.start w h) = some [.start (BitVec.ofNat 16 w) (BitVec.ofNat 16 h)] :=
  if_pos ((wellFormed_start_iff w h).2 ⟨hw, hh⟩)

theorem assemble_pixel {r g b : Nat} (hr : r ≤ 65535) (hg : g ≤ 65535) (hb : b ≤ 65535) :
    assemble (.pixel r g b) = some [.pixel (BitVec.ofNat 16 r) (BitVec.ofNat 16 g) (BitVec.ofNat 16 b)] :=
  if_pos ((wellFormed_pixel_iff r g b).2 ⟨hr, hg, hb⟩)

theorem assemble_pack {w h : Nat} {grid : List (Nat × Nat × Nat)} (hl : (AsmLine.pack w h grid).wellFormed = true) :
    assemble (.pack w h grid) =
      some (expandPack (BitVec.ofNat 16 w) (BitVec.ofNat 16 h) (grid.map pixelOfNats)) :=
  if_pos hl

/-- An operand is a number that fits its field. -/
theorem operand_toNat_le (a : Operand) : a.toNat ≤ 65535 := Nat.le_of_lt_succ a.isLt

/-- Settles O6 (R65, R66): a line is refused exactly when it is not well formed. -/
theorem assemblerRefusesWideOperands : Obligations.AssemblerRefusesWideOperands := by
  refine ⟨fun w h => ?_, fun r g b => ?_, fun w h => ?_, fun r g b => ?_, rfl, fun w h grid => ?_,
    by decide, by decide, by decide, by decide, by decide, by decide⟩
  · rw [assemble_isSome_iff, wellFormed_start_iff]
  · rw [assemble_isSome_iff, wellFormed_pixel_iff]
  · rw [assemble_start (operand_toNat_le w) (operand_toNat_le h)]
    simp
  · rw [assemble_pixel (operand_toNat_le r) (operand_toNat_le g) (operand_toNat_le b)]
    simp
  · rw [assemble_isSome_iff, wellFormed_pack_iff]

/-! The expansion of PACK, position by position (R66) -/

theorem expandPack_length (w h : Operand) (ps : List Pixel) : (expandPack w h ps).length = 2 + ps.length := by
  simp [expandPack]
  omega

theorem expandPack_getElem? (w h : Operand) {ps : List Pixel} {n : Nat} {p : Pixel} (hp : ps[n]? = some p) :
    (expandPack w h ps)[n + 1]? = some (.pixel p.r p.g p.b) := by
  obtain ⟨hn, -⟩ := List.getElem?_eq_some_iff.1 hp
  rw [expandPack, List.getElem?_cons_succ, List.getElem?_append_left (by simpa using hn), List.getElem?_map, hp]
  rfl

theorem expandPack_drop (w h : Operand) (ps : List Pixel) : (expandPack w h ps).drop (ps.length + 1) = [.endFrame] := by
  simp [expandPack]

/-- Settles O5 (R66): the expansion is START, the pixels in list order, END. -/
theorem packExpandsToFrameCommands : Obligations.PackExpandsToFrameCommands := by
  intro w h grid hl
  obtain ⟨hw, hh, hlen, hfit⟩ := (wellFormed_pack_iff w h grid).1 hl
  have hcount : (grid.map pixelOfNats).length = w * h := by rw [List.length_map, hlen]
  refine ⟨_, assemble_pack hl, ?_, assemble_start hw hh, fun n r g b hn => ?_, ?_⟩
  · rw [expandPack_length, hcount]
  · obtain ⟨hr, hg, hb⟩ := hfit _ (List.mem_of_getElem? hn)
    have hpixel : (grid.map pixelOfNats)[n]? = some (pixelOfNats (r, g, b)) := by rw [List.getElem?_map, hn]; rfl
    rw [assemble_pixel hr hg hb, List.take_one, List.head?_drop, expandPack_getElem? _ _ hpixel]
    rfl
  · rw [← hcount, expandPack_drop]

end Sys2Proof.Machine

namespace Sys2Proof.Machine

/-! # The layout of the stream and its bytes (30_encoding.md section 5) -/

/-- The bits of an operand's sample are those of four times the operand, whether CHANOK passes or not: the sample has
only ten bits, and the low eight of the operand are in them (R40, R73). -/
theorem sampleOf_getLsbD (a : Operand) {i : Nat} (hi : i < 10) :
    (sampleOf a).getLsbD i = (4 * a.toNat).testBit i := by
  rw [sampleOf, scale, channelOf, BitVec.getLsbD_append, BitVec.getLsbD_extractLsb',
    show 4 * a.toNat = 2 ^ 2 * a.toNat from rfl, Nat.testBit_two_pow_mul]
  by_cases h : i < 2
  · simp [h]
  · simp [h, show 2 ≤ i by omega, show i - 2 < 8 by omega, BitVec.getLsbD]

/-- The ten bits of a field of the stream are its sample's, bit 9 first (R40, R67). -/
theorem streamBit_eq_sample {ps : List Pixel} {n f j : Nat} {p : Pixel} (hp : ps[n]? = some p) (hf : f < 3)
    (hj : j < 10) : streamBit ps (30 * n + 10 * f + j) = (sampleOf (channelAt p f)).getLsbD (9 - j) := by
  rw [streamBit_field hp hf hj, sampleOf_getLsbD _ (by omega)]

/-- The bit positions of a pixel are those of its three fields (R67). -/
theorem range_pixel :
    List.range 30 =
      (List.range 10).map (10 * 0 + ·) ++ (List.range 10).map (10 * 1 + ·) ++ (List.range 10).map (10 * 2 + ·) := by
  decide

/-- A number's lowest `n` bits, read most significant first after `a`. -/
theorem foldl_testBit (x n a : Nat) :
    (List.range n).foldl (fun a i => 2 * a + (x.testBit (n - (i + 1))).toNat) a = a * 2 ^ n + x % 2 ^ n := by
  induction n generalizing a with
  | zero => simp [Nat.mod_one]
  | succ n ih =>
    simp only [List.range_succ_eq_map, List.foldl_cons, List.foldl_map, Nat.succ_eq_add_one, Nat.add_sub_add_right,
      Nat.sub_zero, ih]
    rw [Nat.mod_pow_succ, Nat.toNat_testBit]
    ring

/-- The ten bits of a field of a legal pixel, read as a number after `a` (R67). -/
theorem foldl_field {ps : List Pixel} {n f : Nat} {p : Pixel} (hp : ps[n]? = some p) (hok : pixelOk p = true)
    (hf : f < 3) (a : Nat) :
    (List.range 10).foldl (fun a j => 2 * a + (streamBit ps (30 * n + 10 * f + j)).toNat) a =
      a * 2 ^ 10 + 4 * (channelAt p f).toNat := by
  have hc := (chanOk_iff _).1 (chanOk_channelAt hok f)
  have hbits : ∀ (a : Nat), ∀ j ∈ List.range 10, 2 * a + (streamBit ps (30 * n + 10 * f + j)).toNat =
      2 * a + ((4 * (channelAt p f).toNat).testBit (10 - (j + 1))).toNat := fun a j hj => by
    rw [streamBit_field hp hf (List.mem_range.1 hj), show 10 - (j + 1) = 9 - j by omega]
  rw [List.foldl_ext _ _ _ hbits, foldl_testBit, Nat.mod_eq_of_lt (by omega)]

/-- Settles O28 (R67): each field's ten bits, then the three fields one after the other. -/
theorem pixelGroupLayout : Obligations.PixelGroupLayout := by
  intro ps n p hp hok
  refine ⟨fun j hj => ⟨streamBit_eq_sample (f := 0) hp (by decide) hj,
    streamBit_eq_sample (f := 1) hp (by decide) hj, streamBit_eq_sample (f := 2) hp (by decide) hj⟩, ?_⟩
  simp only [range_pixel, List.foldl_append, List.foldl_map, ← Nat.add_assoc]
  rw [foldl_field hp hok (by decide), foldl_field hp hok (by decide), foldl_field hp hok (by decide)]
  simp only [channelAt, pixelGroup]
  ring

/-! Fifteen bytes for four pixels (R70) -/

/-- The pixel that stands for one past the end of a list: its bits are the padding's (R42). -/
def noPixel : Pixel := ⟨0, 0, 0⟩

/-- A field of the stream is its sample, also past the end of the list (R40, R42). -/
theorem streamBit_eq_sample_getD (ps : List Pixel) {n f j : Nat} (hf : f < 3) (hj : j < 10) :
    streamBit ps (30 * n + 10 * f + j) = (sampleOf (channelAt (ps.getD n noPixel) f)).getLsbD (9 - j) := by
  rw [List.getD_eq_getElem?_getD]
  cases hp : ps[n]? with
  | some p => exact streamBit_eq_sample hp hf hj
  | none =>
    have hend : ps.length ≤ n := List.getElem?_eq_none_iff.1 hp
    have hzero : sampleOf (channelAt noPixel f) = 0#10 := by interval_cases f <;> rfl
    rw [streamBit_past ps (by omega), Option.getD_none, hzero, BitVec.getLsbD_zero]

/-- The bits of a pixel in stream order (R67). -/
def pixelBits (p : Pixel) : List Bool := [sampleOf p.r, sampleOf p.g, sampleOf p.b].flatMap sampleBits

/-- The thirty stream bits of a pixel, padding past the end of the list (R67, R42). -/
theorem streamBits_pixel (ps : List Pixel) (n : Nat) :
    (List.range 30).map (fun j => streamBit ps (30 * n + j)) = pixelBits (ps.getD n noPixel) := by
  have hfield : ∀ f < 3, (List.range 10).map (fun j => streamBit ps (30 * n + (10 * f + j))) =
      sampleBits (sampleOf (channelAt (ps.getD n noPixel) f)) := fun f hf =>
    List.map_congr_left fun j hj => by
      rw [← Nat.add_assoc, streamBit_eq_sample_getD ps hf (List.mem_range.1 hj)]
  simp only [range_pixel, List.map_append, List.map_map, Function.comp_def]
  rw [hfield 0 (by decide), hfield 1 (by decide), hfield 2 (by decide)]
  simp [pixelBits, channelAt]

/-- The stream bits of `k` pixels from pixel `n` on. -/
theorem streamBits_pixels (ps : List Pixel) (n k : Nat) :
    (List.range (30 * k)).map (fun j => streamBit ps (30 * n + j)) =
      (List.range k).flatMap fun i => pixelBits (ps.getD (n + i) noPixel) := by
  induction k with
  | zero => rfl
  | succ k ih =>
    rw [Nat.mul_succ, List.range_add, List.map_append, ih, List.range_succ (n := k), List.flatMap_append,
      List.flatMap_singleton, ← streamBits_pixel, List.map_map]
    congr 2
    funext j
    simp only [Function.comp_apply]
    congr 1
    ring

/-- The row of R70's table: the fifteen bytes of four pixels' samples. -/
def fifteenBytes (R G B : Nat → Sample) : List Byte :=
  [(R 0).extractLsb' 2 8, (R 0).extractLsb' 0 2 ++ (G 0).extractLsb' 4 6,
    (G 0).extractLsb' 0 4 ++ (B 0).extractLsb' 6 4, (B 0).extractLsb' 0 6 ++ (R 1).extractLsb' 8 2,
    (R 1).extractLsb' 0 8, (G 1).extractLsb' 2 8, (G 1).extractLsb' 0 2 ++ (B 1).extractLsb' 4 6,
    (B 1).extractLsb' 0 4 ++ (R 2).extractLsb' 6 4, (R 2).extractLsb' 0 6 ++ (G 2).extractLsb' 8 2,
    (G 2).extractLsb' 0 8, (B 2).extractLsb' 2 8, (B 2).extractLsb' 0 2 ++ (R 3).extractLsb' 4 6,
    (R 3).extractLsb' 0 4 ++ (G 3).extractLsb' 6 4, (G 3).extractLsb' 0 6 ++ (B 3).extractLsb' 8 2,
    (B 3).extractLsb' 0 8]

/-- The fifteen bytes hold the bits of the twelve samples in order, with no bit between them (R70). -/
theorem fifteenBytes_bits (R G B : Nat → Sample) :
    (fifteenBytes R G B).flatMap byteBits =
      (List.range 4).flatMap fun i => [R i, G i, B i].flatMap sampleBits := by
  simp only [fifteenBytes, List.flatMap_cons, List.flatMap_nil, byteBits_eq, sampleBits_eq, BitVec.getLsbD_append,
    BitVec.getLsbD_extractLsb']
  simp [List.range_succ]

/-- The fifteen bytes of a group of four pixels, those past the end of the list read as padding (R42, R70). -/
theorem streamBytes_group (ps : List Pixel) (q : Nat) :
    (List.range 15).map (fun j => streamByte ps (15 * q + j)) =
      fifteenBytes (fun i => sampleOf (ps.getD (4 * q + i) noPixel).r)
        (fun i => sampleOf (ps.getD (4 * q + i) noPixel).g) (fun i => sampleOf (ps.getD (4 * q + i) noPixel).b) := by
  apply flatMap_byteBits_injective
  calc ((List.range 15).map fun j => streamByte ps (15 * q + j)).flatMap byteBits
      = ((List.range 15).map fun j => byteOfBits fun i => streamBit ps (30 * (4 * q) + (8 * j + i))).flatMap
          byteBits := by
        congr 2
        funext j
        rw [streamByte]
        congr 1
        funext i
        congr 1
        ring
    _ = (List.range (30 * 4)).map fun k => streamBit ps (30 * (4 * q) + k) :=
        flatMap_byteBits_range (fun k => streamBit ps (30 * (4 * q) + k)) 15
    _ = _ := by
        rw [streamBits_pixels, fifteenBytes_bits]
        rfl

/-- The output from the first byte of a group on (R41, R70). -/
theorem packBytes_drop (ps : List Pixel) (q : Nat) :
    (packBytes ps).drop (15 * q) =
      (List.range (outputLength ps.length - 15 * q)).map fun j => streamByte ps (15 * q + j) := by
  apply List.ext_getElem <;> simp [packBytes]

/-- As many bytes of a group as the output has, up to fifteen. -/
theorem packBytes_group (ps : List Pixel) {q k : Nat} (hk : k ≤ 15) (hlen : 15 * q + k ≤ outputLength ps.length) :
    ((packBytes ps).drop (15 * q)).take k =
      (fifteenBytes (fun i => sampleOf (ps.getD (4 * q + i) noPixel).r)
        (fun i => sampleOf (ps.getD (4 * q + i) noPixel).g)
        (fun i => sampleOf (ps.getD (4 * q + i) noPixel).b)).take k := by
  rw [packBytes_drop, ← streamBytes_group, ← List.map_take, ← List.map_take, List.take_range, List.take_range,
    Nat.min_eq_left (by omega), Nat.min_eq_left hk]

/-- A group's bytes when the output ends among them. -/
theorem packBytes_lastGroup (ps : List Pixel) {q k : Nat} (hk : k ≤ 15) (hlen : outputLength ps.length = 15 * q + k) :
    (packBytes ps).drop (15 * q) =
      (fifteenBytes (fun i => sampleOf (ps.getD (4 * q + i) noPixel).r)
        (fun i => sampleOf (ps.getD (4 * q + i) noPixel).g)
        (fun i => sampleOf (ps.getD (4 * q + i) noPixel).b)).take k := by
  rw [← packBytes_group ps hk hlen.ge, List.take_of_length_le (by simp; omega)]

theorem sampleR_past (ps : List Pixel) {n : Nat} (hn : ps.length ≤ n) : sampleOf (ps.getD n noPixel).r = 0#10 := by
  rw [List.getD_eq_default _ _ hn]
  rfl

/-! In each short ending the first missing sample is an R, and its bits in the last byte are zeros. -/

theorem fifteenBytes_take_four {R : Nat → Sample} (G B : Nat → Sample) (h : R 1 = 0#10) :
    (fifteenBytes R G B).take 4 = (fifteenBytes R G B).take 3 ++ [(B 0).extractLsb' 0 6 ++ 0#2] := by
  rw [List.take_succ_eq_append_getElem (by simp [fifteenBytes])]
  simp only [fifteenBytes, List.getElem_cons_succ, List.getElem_cons_zero, h]
  rfl

theorem fifteenBytes_take_eight {R : Nat → Sample} (G B : Nat → Sample) (h : R 2 = 0#10) :
    (fifteenBytes R G B).take 8 = (fifteenBytes R G B).take 7 ++ [(B 1).extractLsb' 0 4 ++ 0#4] := by
  rw [List.take_succ_eq_append_getElem (by simp [fifteenBytes])]
  simp only [fifteenBytes, List.getElem_cons_succ, List.getElem_cons_zero, h]
  rfl

theorem fifteenBytes_take_twelve {R : Nat → Sample} (G B : Nat → Sample) (h : R 3 = 0#10) :
    (fifteenBytes R G B).take 12 = (fifteenBytes R G B).take 11 ++ [(B 2).extractLsb' 0 2 ++ 0#6] := by
  rw [List.take_succ_eq_append_getElem (by simp [fifteenBytes])]
  simp only [fifteenBytes, List.getElem_cons_succ, List.getElem_cons_zero, h]
  rfl

/-- Settles O31 (R70): every group's bytes are the table's, cut off where the output ends. -/
theorem fourPixelsFillFifteenBytes : Obligations.FourPixelsFillFifteenBytes := by
  refine fun ps q => ⟨fun hlen => ?_, fun hlen => ?_, fun hlen => ?_, fun hlen => ?_⟩
  · exact packBytes_group ps le_rfl (by rw [outputLength_eq]; omega)
  · exact (packBytes_lastGroup ps (by decide) (by rw [outputLength_eq, hlen]; omega)).trans
      (fifteenBytes_take_four _ _ (sampleR_past ps hlen.le))
  · exact (packBytes_lastGroup ps (by decide) (by rw [outputLength_eq, hlen]; omega)).trans
      (fifteenBytes_take_eight _ _ (sampleR_past ps hlen.le))
  · exact (packBytes_lastGroup ps (by decide) (by rw [outputLength_eq, hlen]; omega)).trans
      (fifteenBytes_take_twelve _ _ (sampleR_past ps hlen.le))

end Sys2Proof.Machine

namespace Sys2Proof.Machine

/-! # The scaler and the range check (40_scaler.md) -/

/-- Two zero bits below a channel multiply it by four, and ten bits hold the product (R73, R75). -/
theorem scale_toNat (c : Channel) : (scale c).toNat = 4 * c.toNat := by
  rw [scale, BitVec.toNat_append, BitVec.toNat_ofNat, Nat.zero_mod, Nat.or_zero, Nat.shiftLeft_eq, Nat.mul_comm]

theorem scale_toNat_le (c : Channel) : (scale c).toNat ≤ 1020 := by
  rw [scale_toNat]
  have hc := c.isLt
  omega

/-- The product of R75: a shift by two is a multiplication by `2 ^ 2`. -/
theorem scale_eq_mul (c : Channel) : scale c = 4#10 * c.setWidth 10 := by
  rw [scale_eq_shift, BitVec.shiftLeft_eq_mul_twoPow, BitVec.mul_comm]
  rfl

/-- The channel is the sample div 4 (R76). -/
theorem scale_toNat_div_four (c : Channel) : (scale c).toNat / 4 = c.toNat := by
  rw [scale_toNat, Nat.mul_div_cancel_left _ (by decide)]

/-- SCALE has a left inverse, so it is injective (R76). -/
theorem scale_injective : Function.Injective scale := fun c d h =>
  BitVec.eq_of_toNat_eq (by rw [← scale_toNat_div_four c, h, scale_toNat_div_four d])

/-- A multiple of 4 is the sample of its quotient: that of a ten-bit value fits 8 bits (R76). -/
theorem scale_ofNat_div_four {v : Sample} (hmul : v.toNat % 4 = 0) :
    scale (BitVec.ofNat 8 (v.toNat / 4)) = v := by
  apply BitVec.eq_of_toNat_eq
  rw [scale_toNat, BitVec.toNat_ofNat, Nat.mod_eq_of_lt (by omega)]
  omega

theorem exists_scale_eq_iff (v : Sample) : (∃ c : Channel, scale c = v) ↔ v.toNat % 4 = 0 ∧ v.toNat ≤ 1020 := by
  constructor
  · rintro ⟨c, rfl⟩
    exact ⟨by rw [scale_toNat, Nat.mul_mod_right], scale_toNat_le c⟩
  · rintro ⟨hmul, -⟩
    exact ⟨_, scale_ofNat_div_four hmul⟩

/-- The comparison with 255 is the test of the upper byte (R74). -/
theorem chanOk_iff_high_byte_zero (a : Operand) : chanOk a = true ↔ a.extractLsb' 8 8 = 0 := by
  have ha := a.isLt
  rw [chanOk_iff, ← BitVec.toNat_inj, BitVec.extractLsb'_toNat, Nat.shiftRight_eq_div_pow]
  simp only [BitVec.ofNat_eq_ofNat, BitVec.toNat_ofNat]
  omega

/-- Settles O7 (R75): the concatenation is SCALE's definition, and shift and product are equal to it. -/
theorem scalingIsExact : Obligations.ScalingIsExact := fun c =>
  ⟨scale_toNat c, (scale c).isLt, scale_eq_mul c, scale_eq_shift c, rfl⟩

/-- Settles O8 (R76): the samples are the multiples of 4 up to 1020, and none of the three values above is one. -/
theorem scaledSamplesAreMultiplesOfFour : Obligations.ScaledSamplesAreMultiplesOfFour := by
  refine ⟨exists_scale_eq_iff, scale_toNat_div_four, fun _ _ h => scale_injective h, fun c => ?_⟩
  have hle := scale_toNat_le c
  omega

/-- Settles O9 (R74), from what CHANOK compares and what SCALE makes of the operand's low byte. -/
theorem rangeCheckReadsWholeOperand : Obligations.RangeCheckReadsWholeOperand := fun a =>
  ⟨chanOk_iff a, chanOk_iff_high_byte_zero a, sampleOf_toNat⟩

end Sys2Proof.Machine

namespace Sys2Proof.Machine

/-! # The serializer (41_serializer.md) -/

/-! APPEND10's bytes and its new ACC, as numbers (R80) and as bits of ACC and of the sample (R81) -/

theorem withPending_eq (s : State) (v : Sample) :
    withPending s 10 v.toNat = (bitsInHand s.acc s.npend.toNat v).toNat :=
  (bitsInHand_toNat s.acc s.npend.toNat v s.npend.isLt).symm

/-- A slice of eight bits of T is a division by a power of two, cut to a byte. -/
theorem extractLsb'_eq_ofNat_div (t : BitVec 17) (k : Nat) : t.extractLsb' k 8 = BitVec.ofNat 8 (t.toNat / 2 ^ k) := by
  rw [BitVec.extractLsb', Nat.shiftRight_eq_div_pow]

/-- The slices of R80 are the complete bytes of T as a number of NPEND + 10 bits. -/
theorem appendedBytes_eq_bytesOfNumber (s : State) (v : Sample) :
    appendedBytes s v = bytesOfNumber (withPending s 10 v.toNat) (s.npend.toNat + 10) := by
  have hp : s.npend.toNat < 8 := s.npend.isLt
  rw [withPending_eq]
  simp only [appendedBytes, bytesOfNumber, extractLsb'_eq_ofNat_div]
  split_ifs with h
  · rw [show (s.npend.toNat + 10) / 8 = 2 by omega]
    rfl
  · rw [show (s.npend.toNat + 10) / 8 = 1 by omega]
    rfl

/-- Left-aligning `r` bits in a byte drops the bits above them. -/
theorem leftAligned_eq_tailOfNumber (t : BitVec 17) (len : Nat) :
    leftAligned t (len % 8) = tailOfNumber t.toNat len := by
  have hpow : 2 ^ (len % 8) * 2 ^ (8 - len % 8) = 2 ^ 8 := by
    rw [← Nat.pow_add]
    congr 1
    omega
  apply BitVec.eq_of_toNat_eq
  rw [leftAligned, tailOfNumber, BitVec.toNat_shiftLeft, BitVec.toNat_setWidth, BitVec.toNat_ofNat,
    Nat.shiftLeft_eq, Nat.mod_mul_mod, ← Nat.mul_mod_mul_right, hpow, Nat.mod_mod]

/-- R80 in integers: APPEND10 divides the bits in hand into complete bytes and a rest. -/
theorem append10_eq_numbers (s : State) (v : Sample) :
    append10 v s =
      { s with
        trace := s.trace ++ (bytesOfNumber (withPending s 10 v.toNat) (s.npend.toNat + 10)).map .byte
        outcnt := s.outcnt + BitVec.ofNat 34 ((s.npend.toNat + 10) / 8)
        acc := tailOfNumber (withPending s 10 v.toNat) (s.npend.toNat + 10)
        npend := BitVec.ofNat 3 ((s.npend.toNat + 10) % 8)
        bitpos := s.bitpos + 10 } := by
  have hrest : (s.npend.toNat + 2) % 8 = (s.npend.toNat + 10) % 8 := by omega
  rw [append10_eq, appendedBytes_length, appendedBytes_eq_bytesOfNumber, hrest, leftAligned_eq_tailOfNumber,
    ← withPending_eq]

/-- Settles O10 (R80): the rule in integers, and its example, where T is 3 * 1024 + 516. -/
theorem appendEmitsCompleteBytes : Obligations.AppendEmitsCompleteBytes := by
  refine ⟨append10_eq_numbers, fun s hacc hn => ?_⟩
  have ht : withPending s 10 (516 : Sample).toNat = 3588 := by simp [withPending, hacc, hn]
  rw [append10_eq_numbers, ht, hn]
  rfl

/-- A slice of T bit by bit: T's low ten bits are the sample's, and the pending bits are above them (R80). -/
theorem slice_getElem (acc : Byte) {p k : Nat} (v : Sample) (hp : p < 8) (hk : k ≤ 9) (i : Nat) (hi : i < 8) :
    ((bitsInHand acc p v).extractLsb' k 8)[i] =
      if k + i < 10 then v.getLsbD (k + i) else acc.getLsbD (8 - p + (k + i - 10)) := by
  rw [BitVec.getElem_extractLsb', BitVec.getLsbD_eq_getElem (by omega), bitsInHand_getElem acc v hp _ (by omega)]

/-- The first byte out is the pending bits, which stay where ACC holds them, and then the top of the sample (R81). -/
theorem firstByte_eq_append (acc : Byte) (v : Sample) {p q : Nat} (hq : 0 < q) (h : p + q = 8) :
    (bitsInHand acc p v).extractLsb' (p + 2) 8 = (acc.extractLsb' q p ++ v.extractLsb' (p + 2) q).cast h := by
  ext i hi
  rw [slice_getElem acc v (by omega) (by omega), BitVec.getElem_cast, BitVec.getElem_append]
  by_cases hlow : i < q
  · rw [dif_pos hlow, if_pos (by omega), BitVec.getElem_extractLsb']
  · rw [dif_neg hlow, if_neg (by omega), BitVec.getElem_extractLsb']
    congr 1
    omega

/-- With six bits pending the second byte out is the sample's low byte (R81). -/
theorem secondByte_eq (acc : Byte) (v : Sample) : (bitsInHand acc 6 v).extractLsb' 0 8 = v.extractLsb' 0 8 := by
  ext i hi
  rw [slice_getElem acc v (by decide) (by decide), if_pos (by omega), BitVec.getElem_extractLsb']

/-- What stays pending is the low end of the sample, whatever was pending before (R81). -/
theorem leftAligned_eq_append (acc : Byte) (v : Sample) {p r z : Nat} (hp : p < 8) (h : r + z = 8) :
    leftAligned (bitsInHand acc p v) r = (v.extractLsb' 0 r ++ 0#z).cast h := by
  have hz : 8 - r = z := by omega
  ext i hi
  rw [leftAligned, hz, BitVec.getElem_shiftLeft, BitVec.getElem_cast, BitVec.getElem_append]
  by_cases hlow : i < z
  · simp [hlow]
  · rw [dif_neg hlow, BitVec.getElem_setWidth, BitVec.getLsbD_eq_getElem (by omega),
      bitsInHand_getElem acc v hp _ (by omega), if_pos (by omega), BitVec.getElem_extractLsb', Nat.zero_add]
    simp [hlow]

/-- A row of R81's table in which the bits in hand make one byte: less than six bits are pending. -/
theorem append10_of_lt_six {s : State} (v : Sample) {p q z : Nat} (hn : s.npend = BitVec.ofNat 3 p) (hp : p < 6)
    (hq : p + q = 8) (hz : p + 2 + z = 8) :
    append10 v s =
      { s with trace := s.trace ++ [.byte ((s.acc.extractLsb' q p ++ v.extractLsb' (p + 2) q).cast hq)],
               outcnt := s.outcnt + 1, acc := (v.extractLsb' 0 (p + 2) ++ 0#z).cast hz,
               npend := BitVec.ofNat 3 (p + 2), bitpos := s.bitpos + 10 } := by
  have hnat : s.npend.toNat = p := by
    rw [hn, BitVec.toNat_ofNat]
    omega
  have hbytes : appendedBytes s v = [(s.acc.extractLsb' q p ++ v.extractLsb' (p + 2) q).cast hq] := by
    rw [appendedBytes, hnat, if_neg (by omega), firstByte_eq_append _ _ (by omega) hq]
  rw [append10_eq, hbytes, hnat, Nat.mod_eq_of_lt (show p + 2 < 8 by omega),
    leftAligned_eq_append _ _ (by omega) hz]
  rfl

/-- The row of R81's table in which the bits in hand make two bytes. -/
theorem append10_of_six {s : State} (v : Sample) (hn : s.npend = 6) :
    append10 v s =
      { s with trace := s.trace ++ [.byte (s.acc.extractLsb' 2 6 ++ v.extractLsb' 8 2), .byte (v.extractLsb' 0 8)],
               outcnt := s.outcnt + 2, acc := 0, npend := 0, bitpos := s.bitpos + 10 } := by
  have hnat : s.npend.toNat = 6 := by rw [hn]; rfl
  have hbytes : appendedBytes s v = [s.acc.extractLsb' 2 6 ++ v.extractLsb' 8 2, v.extractLsb' 0 8] := by
    rw [appendedBytes, hnat, if_pos le_rfl, secondByte_eq,
      firstByte_eq_append _ _ (by decide) (show 6 + 2 = 8 from rfl)]
    rfl
  have hacc : leftAligned (bitsInHand s.acc 6 v) 0 = 0 := by
    simpa using leftAligned_shiftLeft (bitsInHand s.acc 6 v) (Nat.zero_le 8)
  rw [append10_eq, hbytes, hnat, show (6 + 2) % 8 = 0 from rfl, hacc]
  rfl

/-- Settles O11 (R81): each row from the bits of its bytes, the four appends from the count of bits. -/
theorem appendTable : Obligations.AppendTable := by
  refine ⟨fun s v hn => ?_, fun s v hn => append10_of_lt_six (q := 6) (z := 4) v hn (by decide) rfl rfl,
    fun s v hn => append10_of_lt_six (q := 4) (z := 2) v hn (by decide) rfl rfl,
    fun s v hn => append10_of_six v hn, fun s v1 v2 v3 v4 hn => ?_⟩
  · have hempty : (s.acc.extractLsb' 8 0 ++ v.extractLsb' 2 8).cast (Nat.zero_add 8) = v.extractLsb' 2 8 := by
      rw [BitVec.of_length_zero (x := s.acc.extractLsb' 8 0), BitVec.zero_width_append, BitVec.cast_cast,
        BitVec.cast_eq]
    rw [append10_of_lt_six (q := 8) (z := 6) v hn (by decide) rfl rfl, hempty]
    rfl
  · obtain ⟨bs, htrace, -, hbits⟩ := appendAll_counts [v1, v2, v3, v4] s
    have hlt := (appendAll [v1, v2, v3, v4] s).npend.isLt
    have hcount : 8 * bs.length + (appendAll [v1, v2, v3, v4] s).npend.toNat = 40 := by simpa [hn] using hbits
    have hzero : (appendAll [v1, v2, v3, v4] s).npend.toNat = 0 := by omega
    refine ⟨bs, by omega, ?_⟩
    simp only [appendAll, List.foldl_cons, List.foldl_nil] at htrace hzero
    exact ⟨htrace, BitVec.eq_of_toNat_eq hzero⟩

/-! The serializer's laws (R82, R83) -/

/-- Settles O12 (R83): the laws are `SerializerOk`, and the bits are those of `append10_bits`. -/
theorem appendKeepsSerializerLaws : Obligations.AppendKeepsSerializerLaws := by
  intro s v haligned hpending hcounted
  obtain ⟨hpending', hcounted', haligned'⟩ := SerializerOk.append10 ⟨hpending, hcounted, haligned⟩ v
  exact ⟨haligned', hpending', hcounted', appendedBytes s v, append10_trace v s, append10_bits v s⟩

theorem packPixel_npend_toNat (r g b : Operand) (s : State) :
    (packPixel r g b s).npend.toNat = (s.npend.toNat + 6) % 8 := by
  simp only [packPixel, appendAll, List.foldl, advanceCursor_npend, append10_npend_toNat]
  omega

/-- No command word makes NPEND odd (R82). -/
theorem WordEffect.npend_even {w : Word} {s s' : State} (e : WordEffect w s s') (h : s.npend.toNat % 2 = 0) :
    s'.npend.toNat % 2 = 0 := by
  cases e with
  | discarded => exact h
  | faulted c => exact h
  | opened a b => rfl
  | packed r g b =>
    rw [packPixel_npend_toNat]
    omega
  | finished => rw [finishFrame_npend]; rfl

/-- Settles O13 (R82), by the cases of a step. -/
theorem pendingCountStaysEven : Obligations.PendingCountStaysEven := by
  refine ⟨clear_npend, fun s v => append10_npend_toNat v s, padFlush_npend, fun s r g b hst hfull hc => ?_, rfl,
    fun s s' h e => ?_⟩
  · exact ⟨_, execPixel_of_legal hst hfull hc, packPixel_npend_toNat r g b s⟩
  · rcases step_cases e with ⟨-, rfl⟩ | ⟨w, rest, -, hword⟩ | ⟨rest, -, rfl⟩
    · exact h
    · exact (wordEffect_of_takeWord hword).npend_even h
    · rfl

/-! PADFLUSH and CLEAR (R85, R87) -/

theorem padFlush_of_pending {s : State} (h : s.npend ≠ 0#3) :
    padFlush s = { s with trace := s.trace ++ [.byte s.acc], outcnt := s.outcnt + 1, acc := 0, npend := 0 } := by
  rw [padFlush, if_pos h]
  rfl

theorem padFlush_of_none_pending {s : State} (h : s.npend = 0#3) : padFlush s = { s with acc := 0, npend := 0 } := by
  rw [padFlush, if_neg (not_not.2 h)]
  rfl

/-- I8 of R31 bit by bit: below the pending bits ACC holds zeros. -/
theorem acc_getLsbD_of_aligned {s : State} (h : s.acc <<< s.npend.toNat = 0) {i : Nat} (hi : i < 8 - s.npend.toNat) :
    s.acc.getLsbD i = false := by
  have hin : s.npend.toNat + i < 8 := by omega
  have hbit : (s.acc <<< s.npend.toNat).getLsbD (s.npend.toNat + i) = false := by simp [h]
  rwa [BitVec.getLsbD_shiftLeft, decide_eq_true hin, decide_eq_false (by omega), Nat.add_sub_cancel_left] at hbit

/-- Settles O14 (R85, R87): the byte that PADFLUSH emits is ACC, whose low bits are the padding. -/
theorem padFlushAndClear : Obligations.PadFlushAndClear := by
  refine ⟨fun s => padFlush_of_pending, fun s => padFlush_of_none_pending, fun s => rfl, fun s h haligned => ?_,
    fun s hacc hn => ?_⟩
  · exact ⟨s.acc, by rw [padFlush_of_pending h], byteBits_acc haligned, fun i => acc_getLsbD_of_aligned haligned⟩
  · rw [padFlush_of_pending (by simp [hn]), hacc]

/-! The serializer against a plain list of bits (R89) -/

/-- The first `m` bytes of a list of bits extended with zeros (R41, R86). -/
def bytesOfBits (bits : List Bool) (m : Nat) : List Byte :=
  (List.range m).map fun k => byteOfBits fun i => bits.getD (8 * k + i) false

theorem bytesOfBits_bits (bits : List Bool) (m : Nat) :
    (bytesOfBits bits m).flatMap byteBits = (List.range (8 * m)).map fun k => bits.getD k false :=
  flatMap_byteBits_range (fun k => bits.getD k false) m

/-- Bytes that hold a list of bits and then zeros are the bytes of the list (R86). -/
theorem eq_bytesOfBits {bs : List Byte} {bits : List Bool} {m k : Nat} (hm : 8 * m = bits.length + k)
    (h : bs.flatMap byteBits = bits ++ List.replicate k false) : bs = bytesOfBits bits m := by
  apply flatMap_byteBits_injective
  rw [bytesOfBits_bits, h]
  refine List.ext_getElem (by simp [hm]) fun i hi _ => ?_
  rw [List.getElem_map, List.getElem_range]
  by_cases hin : i < bits.length
  · rw [List.getElem_append_left hin, List.getD_eq_getElem _ _ hin]
  · rw [List.getElem_append_right (not_lt.1 hin), List.getElem_replicate, List.getD_eq_default _ _ (not_lt.1 hin)]

/-- Bits after the first `m` bytes do not change these bytes. -/
theorem bytesOfBits_append {bits : List Bool} {m : Nat} (hm : bits.length = 8 * m) (rest : List Bool) :
    bytesOfBits (bits ++ rest) m = bytesOfBits bits m := by
  apply flatMap_byteBits_injective
  rw [bytesOfBits_bits, bytesOfBits_bits]
  exact List.map_congr_left fun k hk => List.getD_append _ _ _ _ (hm ▸ List.mem_range.1 hk)

theorem appendAll_bitpos_toNat (vs : List Sample) (s : State) :
    (appendAll vs s).bitpos.toNat = (s.bitpos.toNat + 10 * vs.length) % 2 ^ 37 := by
  induction vs generalizing s with
  | nil => exact (Nat.mod_eq_of_lt s.bitpos.isLt).symm
  | cons v vs ih =>
    rw [appendAll_cons, ih, append10_bitpos_toNat, List.length_cons]
    omega

theorem clear_serializerOk (s : State) : SerializerOk (clear s) := ⟨rfl, by simp, rfl⟩

theorem padFlush_trace_eq (s : State) : (padFlush s).trace = s.trace ++ (flushedBytes s).map .byte := by
  by_cases h : s.npend = 0#3 <;> simp [flushedBytes, h]

/-- Flushing completes the last byte with zeros (R86). -/
theorem flushedBytes_bits {s : State} (h : s.acc <<< s.npend.toNat = 0) :
    ∃ k, (flushedBytes s).flatMap byteBits = pendingBits s ++ List.replicate k false ∧
      s.npend.toNat + k = 8 * ((s.npend.toNat + 7) / 8) := by
  have hp : s.npend.toNat < 8 := s.npend.isLt
  by_cases hn : s.npend = 0#3
  · exact ⟨0, by simp [flushedBytes, pendingBits, hn], by simp [hn]⟩
  · have hn0 : s.npend.toNat ≠ 0 := fun h0 => hn (BitVec.eq_of_toNat_eq h0)
    exact ⟨8 - s.npend.toNat, by simp [flushedBytes, hn, byteBits_acc h], by omega⟩

/-- What the serializer holds of the bits that have gone in: the complete bytes are out and the rest is pending, and
flushing puts the bytes of the bits extended with zeros out (R86, R89). -/
theorem bytes_of_bits_in {s : State} {bs : List Byte} {bits : List Bool} (haligned : s.acc <<< s.npend.toNat = 0)
    (hbits : bs.flatMap byteBits ++ pendingBits s = bits) :
    bs = bytesOfBits bits (bits.length / 8) ∧ s.npend.toNat = bits.length % 8 ∧
      pendingBits s = bits.drop (8 * (bits.length / 8)) ∧
      bs ++ flushedBytes s = bytesOfBits bits ((bits.length + 7) / 8) := by
  have hp : s.npend.toNat < 8 := s.npend.isLt
  have hlen : 8 * bs.length + s.npend.toNat = bits.length := by
    rw [← hbits, List.length_append, flatMap_byteBits_length, pendingBits_length]
  have hbytes : bits.length / 8 = bs.length := by omega
  obtain ⟨k, hflushed, hk⟩ := flushedBytes_bits haligned
  refine ⟨?_, by omega, ?_, eq_bytesOfBits (k := k) (by omega) ?_⟩
  · rw [hbytes, ← hbits, bytesOfBits_append (flatMap_byteBits_length bs)]
    exact eq_bytesOfBits (k := 0) (flatMap_byteBits_length bs).symm (List.append_nil _).symm
  · rw [hbytes, ← hbits, ← flatMap_byteBits_length, List.drop_left]
  · rw [List.flatMap_append, hflushed, ← List.append_assoc, hbits]

/-- Settles O15 (R89): no append loses or inserts a bit, and less than a byte of them is pending. -/
theorem serializerHoldsPlainBitList : Obligations.SerializerHoldsPlainBitList := by
  intro s vs hfit
  obtain ⟨-, -, haligned⟩ := (clear_serializerOk s).appendAll vs
  obtain ⟨bs, htrace, hbits⟩ := appendAll_emits vs (clear s)
  have hnone : pendingBits (clear s) = [] := rfl
  rw [hnone, List.nil_append] at hbits
  obtain ⟨hbytes, hpending, hrest, hpadded⟩ := bytes_of_bits_in haligned hbits
  refine ⟨?_, ?_, hpending, hrest, ?_⟩
  · exact (appendAll_bitpos_toNat vs (clear s)).trans (by simpa [Nat.mul_comm vs.length] using hfit)
  · exact htrace.trans (congrArg (fun l : List Byte => s.trace ++ l.map .byte) hbytes)
  · calc (padFlush (appendAll vs (clear s))).trace
        = s.trace ++ (bs ++ flushedBytes (appendAll vs (clear s))).map .byte := by
          rw [padFlush_trace_eq, htrace, clear_trace, List.map_append, List.append_assoc]
      _ = s.trace ++ (bytesOfBits (vs.flatMap sampleBits) (((vs.flatMap sampleBits).length + 7) / 8)).map .byte := by
          rw [hpadded]

end Sys2Proof.Machine

namespace Sys2Proof.Machine

/-! # The frame packer (42_frame_packer.md) -/

/-! The faults of the commands, in their order (R96, R99, R106) -/

theorem execStart_of_pack (w h : Operand) {s : State} (hst : s.st = .pack) :
    execStart w h s = .next (raiseFault .sequenceError s) := by
  simp [execStart, hst]

theorem execPixel_of_idle (r g b : Operand) {s : State} (hst : s.st = .idle) :
    execPixel r g b s = .next (raiseFault .sequenceError s) := by
  simp [execPixel, hst]

theorem chansOk_eq_false_iff (r g b : Operand) :
    chansOk r g b = false ↔ 255 < r.toNat ∨ 255 < g.toNat ∨ 255 < b.toNat := by
  rw [← Bool.not_eq_true, chansOk_iff]
  omega

theorem execPixel_of_illegal {r g b : Operand} {s : State} (hst : s.st = .pack) (hfull : full s = false)
    (hc : chansOk r g b = false) : execPixel r g b s = .next (raiseFault .invalidChannelValue s) := by
  simp [execPixel, hst, hfull, hc]

theorem execEnd_of_idle {s : State} (hst : s.st = .idle) : execEnd s = .next (raiseFault .sequenceError s) := by
  simp [execEnd, hst]

theorem execEnd_of_not_full {s : State} (hst : s.st = .pack) (hfull : full s = false) :
    execEnd s = .next (raiseFault .frameUnderrun s) := by
  simp [execEnd, hst, hfull]

/-! A number of bits appended at once (R80, R101) -/

/-- APPEND10's effect for a value of `n` bits: the bits in hand are divided into complete bytes and a rest (R80). -/
def appendNumber (n v : Nat) (s : State) : State :=
  { s with
    trace := s.trace ++ (bytesOfNumber (withPending s n v) (s.npend.toNat + n)).map .byte
    outcnt := s.outcnt + BitVec.ofNat 34 ((s.npend.toNat + n) / 8)
    acc := tailOfNumber (withPending s n v) (s.npend.toNat + n)
    npend := BitVec.ofNat 3 ((s.npend.toNat + n) % 8)
    bitpos := s.bitpos + BitVec.ofNat 37 n }

theorem append10_eq_appendNumber (v : Sample) (s : State) : append10 v s = appendNumber 10 v.toNat s :=
  append10_eq_numbers s v

/-- A byte read out of a number depends only on the number's bits up to the byte's highest. -/
theorem byte_congr {T T' e : Nat} (h : T ≡ T' [MOD 2 ^ (e + 8)]) :
    BitVec.ofNat 8 (T / 2 ^ e) = BitVec.ofNat 8 (T' / 2 ^ e) := by
  apply BitVec.eq_of_toNat_eq
  rw [BitVec.toNat_ofNat, BitVec.toNat_ofNat, ← Nat.mod_mul_right_div_self,
    ← Nat.mod_mul_right_div_self, ← Nat.pow_add, h]

/-- Bits of `t` above the last `r` do not matter once `n` more bits have been put below (R80). -/
theorem mod_mul_add_modEq (t r n v : Nat) : t % 2 ^ r * 2 ^ n + v ≡ t * 2 ^ n + v [MOD 2 ^ (r + n)] := by
  rw [Nat.pow_add]
  exact Nat.ModEq.add_right v (Nat.ModEq.mul_right' (2 ^ n) (Nat.mod_modEq t (2 ^ r)))

/-- The complete bytes of `len` bits, then those of the rest with `n` more bits, are the complete bytes of all bits. -/
theorem bytesOfNumber_append (t len n v : Nat) (hv : v < 2 ^ n) :
    bytesOfNumber t len ++ bytesOfNumber (t % 2 ^ (len % 8) * 2 ^ n + v) (len % 8 + n) =
      bytesOfNumber (t * 2 ^ n + v) (len + n) := by
  have hcount : (len + n) / 8 = len / 8 + (len % 8 + n) / 8 := by omega
  simp only [bytesOfNumber, hcount, List.range_add, List.map_append, List.map_map]
  congr 1
  · refine List.map_congr_left fun k hk => ?_
    have hk := List.mem_range.1 hk
    rw [show len + n - 8 * (k + 1) = n + (len - 8 * (k + 1)) by omega, Nat.pow_add, ← Nat.div_div_eq_div_mul,
      Nat.mul_comm t, Nat.mul_add_div (by positivity), Nat.div_eq_of_lt hv]
    rfl
  · refine List.map_congr_left fun k hk => ?_
    have hk := List.mem_range.1 hk
    rw [Function.comp_apply, show len + n - 8 * (len / 8 + k + 1) = len % 8 + n - 8 * (k + 1) by omega]
    exact byte_congr ((mod_mul_add_modEq t (len % 8) n v).of_dvd (Nat.pow_dvd_pow 2 (by omega)))

theorem tailOfNumber_append (t len n v : Nat) :
    tailOfNumber (t % 2 ^ (len % 8) * 2 ^ n + v) (len % 8 + n) = tailOfNumber (t * 2 ^ n + v) (len + n) := by
  have hrest : (len % 8 + n) % 8 = (len + n) % 8 := by omega
  have hmod : t % 2 ^ (len % 8) * 2 ^ n + v ≡ t * 2 ^ n + v [MOD 2 ^ ((len + n) % 8)] :=
    (mod_mul_add_modEq t (len % 8) n v).of_dvd (Nat.pow_dvd_pow 2 (by omega))
  rw [tailOfNumber, tailOfNumber, hrest, hmod]

/-- The pending bits of a left-aligned rest are the rest (R23). -/
theorem tailOfNumber_toNat_div (t len : Nat) :
    (tailOfNumber t len).toNat / 2 ^ (8 - len % 8) = t % 2 ^ (len % 8) := by
  have hlt : t % 2 ^ (len % 8) * 2 ^ (8 - len % 8) < 2 ^ 8 := by
    calc t % 2 ^ (len % 8) * 2 ^ (8 - len % 8)
        < 2 ^ (len % 8) * 2 ^ (8 - len % 8) :=
          Nat.mul_lt_mul_of_pos_right (Nat.mod_lt _ (by positivity)) (by positivity)
      _ = 2 ^ 8 := by rw [← Nat.pow_add]; congr 1; omega
  rw [tailOfNumber, BitVec.toNat_ofNat, Nat.mod_eq_of_lt hlt, Nat.mul_div_cancel _ (by positivity)]

theorem withPending_appendNumber (n m v u : Nat) (s : State) :
    withPending (appendNumber n v s) m u =
      withPending s n v % 2 ^ ((s.npend.toNat + n) % 8) * 2 ^ m + u := by
  have hnpend : (appendNumber n v s).npend.toNat = (s.npend.toNat + n) % 8 := by simp [appendNumber]
  rw [withPending, hnpend]
  exact congrArg (· * 2 ^ m + u) (tailOfNumber_toNat_div _ _)

/-- Two appends make one append of both values' bits (R101). -/
theorem appendNumber_appendNumber (n m v : Nat) {u : Nat} (hu : u < 2 ^ m) (s : State) :
    appendNumber m u (appendNumber n v s) = appendNumber (n + m) (v * 2 ^ m + u) s := by
  have hnpend : (appendNumber n v s).npend.toNat = (s.npend.toNat + n) % 8 := by simp [appendNumber]
  have hall : withPending s (n + m) (v * 2 ^ m + u) = withPending s n v * 2 ^ m + u := by
    rw [withPending, withPending]
    ring
  have hcount : (s.npend.toNat + (n + m)) / 8 =
      (s.npend.toNat + n) / 8 + ((s.npend.toNat + n) % 8 + m) / 8 := by omega
  have hrest : (s.npend.toNat + (n + m)) % 8 = ((s.npend.toNat + n) % 8 + m) % 8 := by omega
  have hbytes := bytesOfNumber_append (withPending s n v) (s.npend.toNat + n) m u hu
  have htail := tailOfNumber_append (withPending s n v) (s.npend.toNat + n) m u
  rw [Nat.add_assoc] at hbytes htail
  rw [appendNumber, withPending_appendNumber, hnpend]
  simp only [appendNumber, hall, hcount, hrest, htail, ← hbytes, BitVec.ofNat_add, BitVec.add_assoc, List.map_append,
    List.append_assoc]

/-- A successful PIXEL appends the 30-bit group of its pixel and moves the cursor (R67, R101, R102). -/
theorem packPixel_eq_appendNumber {r g b : Operand} (hc : chansOk r g b = true) (s : State) :
    packPixel r g b s = advanceCursor (appendNumber 30 (pixelGroup r g b) s) := by
  obtain ⟨hr, hg, hb⟩ := (chansOk_iff r g b).1 hc
  have hgroup : pixelGroup r g b = 4 * r.toNat * 2 ^ 20 + (4 * g.toNat * 2 ^ 10 + 4 * b.toNat) :=
    Nat.add_assoc _ _ _
  simp only [packPixel, appendAll, List.foldl_cons, List.foldl_nil, append10_eq_appendNumber,
    sampleOf_toNat ((chanOk_iff _).2 hr), sampleOf_toNat ((chanOk_iff _).2 hg), sampleOf_toNat ((chanOk_iff _).2 hb)]
  rw [appendNumber_appendNumber 10 10 _ (by omega), appendNumber_appendNumber 10 20 _ (by omega), hgroup]

/-- The whole effect of a successful PIXEL, in integers (R101, R102). -/
theorem packPixel_eq_numbers {r g b : Operand} (hc : chansOk r g b = true) (s : State) :
    packPixel r g b s =
      { s with
        trace := s.trace ++ (bytesOfNumber (withPending s 30 (pixelGroup r g b)) (s.npend.toNat + 30)).map .byte
        outcnt := s.outcnt + BitVec.ofNat 34 ((s.npend.toNat + 30) / 8)
        acc := tailOfNumber (withPending s 30 (pixelGroup r g b)) (s.npend.toNat + 30)
        npend := BitVec.ofNat 3 ((s.npend.toNat + 6) % 8)
        bitpos := s.bitpos + 30
        x := if s.x + 1 = s.width then 0 else s.x + 1
        y := if s.x + 1 = s.width then s.y + 1 else s.y } := by
  have hrest : (s.npend.toNat + 30) % 8 = (s.npend.toNat + 6) % 8 := by omega
  rw [packPixel_eq_appendNumber hc, appendNumber, hrest, advanceCursor]
  split_ifs <;> rfl

/-- Settles O17 (R101, R102): the three appends are one of the pixel's 30-bit group; the checks in their order. -/
theorem pixelPacksThreeSamples : Obligations.PixelPacksThreeSamples := by
  refine ⟨fun s r g b hst hw hy hr hg hb => ?_, fun s r g b => exec_of_err _, fun s r g b => execPixel_of_idle r g b,
    fun s r g b hst hend => execPixel_of_full r g b hst ((full_iff s).2 hend),
    fun s r g b hst hw hy hc => execPixel_of_illegal hst ((full_eq_false_iff s).2 ⟨hw, hy⟩)
      ((chansOk_eq_false_iff r g b).2 hc), rfl⟩
  have hc : chansOk r g b = true := (chansOk_iff r g b).2 ⟨hr, hg, hb⟩
  rw [exec_pixel_eq, execPixel_of_legal hst ((full_eq_false_iff s).2 ⟨hw, hy⟩) hc, packPixel_eq_numbers hc]

/-! START and END (R93, R106) -/

/-- The whole effect of a successful END (R106). -/
theorem finishFrame_eq (s : State) :
    finishFrame s =
      { s with st := .idle, acc := 0, npend := 0, outcnt := if s.npend = 0#3 then s.outcnt else s.outcnt + 1,
               trace := s.trace ++ (flushedBytes s).map .byte ++ [.done] } := by
  apply State.ext_fields <;> simp

/-- Settles O16 (R93): each state's case of START. -/
theorem startOpensFrame : Obligations.StartOpensFrame := by
  refine ⟨fun s w h => execStart_of_idle w h, fun s w h => execStart_of_pack w h, fun s w h => exec_of_err _,
    fun s s' w h hst e => ?_, rfl⟩
  rw [exec_start_eq, execStart_of_idle w h hst, Host.Outcome.next.injEq] at e
  rw [← e]
  rfl

/-- Settles O18 (R106): each state's case of END; OUTCNT's law is that of a full frame with the invariant. -/
theorem endFlushesAndCloses : Obligations.EndFlushesAndCloses := by
  refine ⟨fun s hst hend hn => ?_, fun s hst hend hn => ?_, fun s => exec_of_err _, fun s => execEnd_of_idle,
    fun s hst hw hy => execEnd_of_not_full hst ((full_eq_false_iff s).2 ⟨hw, hy⟩),
    fun s s' hinv hst hfull e => ?_, rfl⟩
  · rw [exec_endFrame_eq, execEnd_of_full hst ((full_iff s).2 hend), finishFrame_eq]
    simp [flushedBytes, hn]
  · rw [exec_endFrame_eq, execEnd_of_full hst ((full_iff s).2 hend), finishFrame_eq]
    simp [flushedBytes, hn]
  · rw [exec_endFrame_eq, execEnd_of_full hst hfull, Host.Outcome.next.injEq] at e
    subst e
    exact ⟨(hinv.packed hst).2.outcnt_finishFrame hfull, rfl⟩

end Sys2Proof.Machine

namespace Sys2Proof.Machine

/-! # The state machine (42_frame_packer.md section 1) -/

theorem bytesOfNumber_length (t len : Nat) : (bytesOfNumber t len).length = len / 8 := by
  simp [bytesOfNumber]

/-- A step's answer to a word is that of the word's command (R92). -/
theorem eq_of_exec {w : Word} {i : Instr} {s s' t : State} (e : step (presentWord w s) = .next s')
    (hw : decode w = .ok i) (h : exec i s = .next t) : s' = t := by
  rw [step_presentWord, takeWord_of_decode hw, h, Host.Outcome.next.injEq] at e
  exact e.symm

/-- Settles O19 (R92): each cell is a case of the meaning of the word's command. -/
theorem stateMachineTable : Obligations.StateMachineTable := by
  refine ⟨fun s rest => ⟨_, step_withInput_reset rest s, rfl⟩, fun s s' w e => ?_⟩
  refine ⟨fun hst => takeWord_of_err hst e, fun hst hw => ?_, fun a b hst hw => ?_,
    fun r g b hst hw => eq_of_exec e hw (execPixel_of_idle r g b hst),
    fun hst hw => eq_of_exec e hw (execEnd_of_idle hst),
    fun a b hst hw => eq_of_exec e hw (execStart_of_pack a b hst),
    fun r g b hst hw => ⟨fun hfull => eq_of_exec e hw (execPixel_of_full r g b hst hfull), fun hfull hc => ?_,
      fun hfull hr hg hb => ?_⟩,
    fun hst hw => ⟨fun hfull => eq_of_exec e hw (execEnd_of_not_full hst hfull), fun hfull => ?_⟩⟩
  · rw [step_presentWord, takeWord_of_illegal hw hst, Host.Outcome.next.injEq] at e
    exact e.symm
  · obtain rfl := eq_of_exec e hw (execStart_of_idle a b hst)
    exact ⟨rfl, rfl, rfl, rfl, rfl⟩
  · exact eq_of_exec e hw (execPixel_of_illegal hst hfull ((chansOk_eq_false_iff r g b).2 hc))
  · have hc : chansOk r g b = true := (chansOk_iff r g b).2 ⟨hr, hg, hb⟩
    obtain rfl := eq_of_exec e hw (execPixel_of_legal hst hfull hc)
    have hlt := s.npend.isLt
    rw [packPixel_eq_numbers hc]
    refine ⟨hst, rfl, rfl, _, rfl, rfl, ?_⟩
    rw [bytesOfNumber_length]
    split_ifs <;> omega
  · obtain rfl := eq_of_exec e hw (execEnd_of_full hst hfull)
    refine ⟨rfl, finishFrame_errcode s, ?_⟩
    rw [finishFrame_trace, flushedBytes, apply_ite (List.map OutItem.byte)]
    rfl

/-! # Commands one after the other (R39, R66) -/

/-! The host's moves still to come do not change what a command does (R136) -/

theorem appendAll_withInput (vs : List Sample) (r : List HostMove) (s : State) :
    appendAll vs (withInput r s) = withInput r (appendAll vs s) := by
  induction vs generalizing s with
  | nil => rfl
  | cons v vs ih => rw [appendAll_cons, append10_withInput, ih, appendAll_cons]

theorem packPixel_withInput (r g b : Operand) (moves : List HostMove) (s : State) :
    packPixel r g b (withInput moves s) = withInput moves (packPixel r g b s) := by
  rw [packPixel, appendAll_withInput, advanceCursor_withInput, packPixel]

theorem finishFrame_withInput (r : List HostMove) (s : State) :
    finishFrame (withInput r s) = withInput r (finishFrame s) := by
  rw [finishFrame, padFlush_withInput, closeFrame_withInput, pulseDone_withInput, finishFrame]

theorem exec_withInput {i : Instr} {s s' : State} (r : List HostMove) (e : exec i s = .next s') :
    exec i (withInput r s) = .next (withInput r s') := by
  cases i with
  | start w h =>
    rcases execStart_cases e with ⟨hst, rfl⟩ | ⟨hst, rfl⟩ | ⟨hst, rfl⟩
    · exact exec_of_err _ hst
    · exact execStart_of_pack w h hst
    · exact execStart_of_idle w h hst
  | pixel a g b =>
    rcases execPixel_cases e with ⟨hst, rfl⟩ | ⟨hst, rfl⟩ | ⟨hst, hfull, rfl⟩ | ⟨hst, hfull, hc, rfl⟩ |
      ⟨hst, hfull, hc, rfl⟩
    · exact exec_of_err _ hst
    · exact execPixel_of_idle a g b hst
    · exact execPixel_of_full a g b hst hfull
    · exact execPixel_of_illegal hst hfull hc
    · exact (execPixel_of_legal (s := withInput r s) hst hfull hc).trans (congrArg _ (packPixel_withInput a g b r s))
  | endFrame =>
    rcases execEnd_cases e with ⟨hst, rfl⟩ | ⟨hst, rfl⟩ | ⟨hst, hfull, rfl⟩ | ⟨hst, hfull, rfl⟩
    · exact exec_of_err _ hst
    · exact execEnd_of_idle hst
    · exact execEnd_of_not_full hst hfull
    · exact (execEnd_of_full (s := withInput r s) hst hfull).trans (congrArg _ (finishFrame_withInput r s))

/-- The host's presenting the commands `is` takes the block from `s` to `s'`, whatever moves come after them. -/
def Runs (is : List Instr) (s s' : State) : Prop :=
  ∀ rest, run is.length (withInput (presentAll is ++ rest) s) = .next (withInput rest s')

theorem Runs.nil (s : State) : Runs [] s s := fun _ => rfl

theorem Runs.cons {i : Instr} {is : List Instr} {s s' s'' : State} (e : exec i s = .next s') (h : Runs is s' s'') :
    Runs (i :: is) s s'' := fun rest => by
  have hstep : step (withInput (presentAll (i :: is) ++ rest) s) = .next (withInput (presentAll is ++ rest) s') := by
    rw [presentAll, List.map_cons, List.cons_append, step_withInput_word, takeWord_of_decode (decode_encode i)]
    exact exec_withInput _ e
  rw [List.length_cons, run_succ_of_next hstep, h rest]

theorem Runs.append {is js : List Instr} {s s' s'' : State} (h : Runs is s s') (h' : Runs js s' s'') :
    Runs (is ++ js) s s'' := fun rest => by
  rw [List.length_append, presentAll, List.map_append, List.append_assoc]
  exact (run_add_of_next _ (h _)).trans (h' rest)

/-- In ERR every command is discarded (R123). -/
theorem Runs.of_err {s : State} (hst : s.st = .err) (is : List Instr) : Runs is s s := by
  induction is with
  | nil => exact .nil s
  | cons i is ih => exact .cons (exec_of_err i hst) ih

/-- Settles O23 (R107, R110): by the remainder of the number of pixels, which fixes NPEND under the invariant. -/
theorem endCornerCases : Obligations.EndCornerCases := by
  refine ⟨fun s hinv hst hfull => ?_, fun s hst hfull => execEnd_of_not_full hst hfull, fun s rest hst hfull => ?_⟩
  · have hopen := (hinv.packed hst).2
    have hpos := hopen.bitpos_of_full hfull
    have hcount := hopen.outcnt_finishFrame hfull
    have hpending := hopen.i6
    have htable : ∀ k < 4, 30 * k % 8 = [0, 6, 4, 2].getD k 0 := by decide
    generalize s.width.toNat * s.height.toNat = n at *
    refine ⟨_, flushedBytes s, execEnd_of_full hst hfull, finishFrame_trace s, ?_, ?_, hopen.i8, ?_⟩
    · have hn : s.npend = 0#3 ↔ n % 4 = 0 := by
        rw [← BitVec.toNat_inj, hpending, hpos]
        simp
        omega
      simp only [flushedBytes, hn]
    · rw [← htable _ (Nat.mod_lt _ (by decide)), hpending, hpos]
      omega
    · rw [hcount, hpos, outputLength_eq]
  · have hruns : Runs [.endFrame, .endFrame] s (raiseFault .sequenceError (finishFrame s)) :=
      .cons (execEnd_of_full hst hfull) (.cons (execEnd_of_idle (finishFrame_st s)) (.nil _))
    exact ⟨_, hruns rest, rfl, rfl⟩

/-- Settles O20 (R94): a frame of no area is full as START leaves it, with nothing pending. -/
theorem zeroAreaFrameIsEmpty : Obligations.ZeroAreaFrameIsEmpty := by
  intro s w h rest hst harea
  have hstart : exec (.start w h) s = .next (openFrame w h s) := execStart_of_idle w h hst
  have hfull : full (openFrame w h s) = true := (full_iff _).2 (harea.imp id Eq.symm)
  refine ⟨fun s' e => ?_, ?_, fun r g b => ?_⟩
  · rw [hstart, Host.Outcome.next.injEq] at e
    exact e ▸ hfull
  · have hruns : Runs [.start w h, .endFrame] s (finishFrame (openFrame w h s)) :=
      .cons hstart (.cons (execEnd_of_full (openFrame_st w h s) hfull) (.nil _))
    refine (hruns rest).trans (congrArg _ ?_)
    apply State.ext_fields <;> simp [hst, flushedBytes]
  · have hruns : Runs [.start w h, .pixel r g b] s (raiseFault .frameOverrun (openFrame w h s)) :=
      .cons hstart (.cons (execPixel_of_full r g b (openFrame_st w h s) hfull) (.nil _))
    exact ⟨_, hruns rest, rfl, rfl, rfl⟩

end Sys2Proof.Machine

namespace Sys2Proof.Machine

/-! # The commands of a whole frame (42_frame_packer.md section 5) -/

/-! The bytes of a stream that has gone in (R41, R89) -/

/-- Once the stream of `ps` has gone in, the bytes emitted and ACC are the stream's bytes up to the incomplete one. -/
theorem emitted_append_acc {s : State} {bs : List Byte} {ps : List Pixel} (haligned : s.acc <<< s.npend.toNat = 0)
    (hbits : bs.flatMap byteBits ++ pendingBits s = streamPrefix ps (30 * ps.length)) :
    bs ++ [s.acc] = (List.range (30 * ps.length / 8 + 1)).map (streamByte ps) := by
  have hp : s.npend.toNat < 8 := s.npend.isLt
  have hlen : bs.length * 8 + s.npend.toNat = 30 * ps.length := by simpa using congrArg List.length hbits
  apply flatMap_byteBits_injective
  calc (bs ++ [s.acc]).flatMap byteBits
      = streamPrefix ps (30 * ps.length) ++ List.replicate (8 - s.npend.toNat) false := by
        rw [List.flatMap_append, List.flatMap_singleton, byteBits_acc haligned, ← List.append_assoc, hbits]
    _ = streamPrefix ps (8 * (30 * ps.length / 8 + 1)) := by
        rw [streamPrefix_append_zeros]
        congr 1
        omega
    _ = _ := (flatMap_byteBits_range (streamBit ps) _).symm

theorem packBytes_take (ps : List Pixel) {m : Nat} (hm : m ≤ outputLength ps.length) :
    (packBytes ps).take m = (List.range m).map (streamByte ps) := by
  rw [packBytes, ← List.map_take, List.take_range, Nat.min_eq_left hm]

/-- The complete bytes are out, and the incomplete one stands in ACC. -/
theorem emitted_eq_take {s : State} {bs : List Byte} {ps : List Pixel} (haligned : s.acc <<< s.npend.toNat = 0)
    (hbits : bs.flatMap byteBits ++ pendingBits s = streamPrefix ps (30 * ps.length)) :
    bs = (packBytes ps).take (30 * ps.length / 8) ∧ s.acc = streamByte ps (30 * ps.length / 8) := by
  have h := emitted_append_acc haligned hbits
  rw [List.range_succ, List.map_append] at h
  obtain ⟨hbs, hacc⟩ := List.append_inj' h rfl
  refine ⟨?_, by simpa using hacc⟩
  rw [hbs, packBytes_take]
  rw [outputLength_eq]
  omega

/-! An open frame, from any idle state -/

/-- The state `t` is that of a frame opened in `s` after the pixels `ps` have been packed, whatever was emitted before
the frame (R93, R101). Unlike `OpenFrame` it does not need the invariant of `s`, and it says which pixels. -/
structure Packed (w h : Operand) (ps : List Pixel) (s t : State) : Prop where
  st : t.st = .pack
  errcode : t.errcode = s.errcode
  width : t.width = w
  height : t.height = h
  x : t.x = BitVec.ofNat 16 (ps.length % w.toNat)
  y : t.y = BitVec.ofNat 16 (ps.length / w.toNat)
  bitpos : t.bitpos = BitVec.ofNat 37 (30 * ps.length)
  serializer : SerializerOk t
  earlier : t.earlier = s.earlier
  input : t.input = s.input
  emitted : ∃ bs : List Byte, t.trace = s.trace ++ bs.map .byte ∧
    bs.flatMap byteBits ++ pendingBits t = streamPrefix ps (30 * ps.length)

theorem Packed.openFrame (w h : Operand) (s : State) : Packed w h [] s (openFrame w h s) where
  st := rfl
  errcode := rfl
  width := rfl
  height := rfl
  x := by simp
  y := by simp
  bitpos := rfl
  serializer := ⟨rfl, by simp, rfl⟩
  earlier := rfl
  input := rfl
  emitted := ⟨[], by simp, rfl⟩

/-- How division by the width counts one pixel more (R102). -/
theorem cursor_succ {n w : Nat} (hw : 0 < w) :
    (n % w + 1 = w ∧ (n + 1) % w = 0 ∧ (n + 1) / w = n / w + 1) ∨
      (n % w + 1 < w ∧ (n + 1) % w = n % w + 1 ∧ (n + 1) / w = n / w) := by
  have hn := Nat.mod_add_div n w
  have hx := Nat.mod_lt n hw
  by_cases hlast : n % w + 1 = w
  · obtain ⟨hdiv, hmod⟩ := (Nat.div_mod_unique (a := n + 1) (d := n / w + 1) (c := 0) hw).2
      ⟨by rw [Nat.mul_succ]; omega, hw⟩
    exact .inl ⟨hlast, hmod, hdiv⟩
  · obtain ⟨hdiv, hmod⟩ := (Nat.div_mod_unique (a := n + 1) (d := n / w) (c := n % w + 1) hw).2
      ⟨by omega, by omega⟩
    exact .inr ⟨by omega, hmod, hdiv⟩

section
variable {w h : Operand} {ps : List Pixel} {s t : State}

/-- The cursor's step is one more pixel in row-major order (R102). -/
theorem Packed.cursor_packPixel (ht : Packed w h ps s t) (hw : 0 < w.toNat) (r g b : Operand) :
    (packPixel r g b t).x = BitVec.ofNat 16 ((ps.length + 1) % w.toNat) ∧
      (packPixel r g b t).y = BitVec.ofNat 16 ((ps.length + 1) / w.toNat) := by
  have hstep : t.x + 1 = t.width ↔ ps.length % w.toNat + 1 = w.toNat := by
    have hx := Nat.mod_lt ps.length hw
    have hlt := w.isLt
    rw [ht.x, ht.width, ← BitVec.toNat_inj, BitVec.toNat_add, BitVec.toNat_ofNat,
      show (1 : BitVec 16).toNat = 1 from rfl]
    omega
  rw [packPixel_x, packPixel_y]
  rcases cursor_succ (n := ps.length) hw with ⟨hlast, hx, hy⟩ | ⟨hmore, hx, hy⟩
  · rw [if_pos (hstep.2 hlast), if_pos (hstep.2 hlast), hx, hy, ht.y, BitVec.ofNat_add]
    exact ⟨rfl, rfl⟩
  · rw [if_neg (hmore.ne ∘ hstep.1), if_neg (hmore.ne ∘ hstep.1), hx, hy, ht.x, ht.y, BitVec.ofNat_add]
    exact ⟨rfl, rfl⟩

theorem Packed.packPixel (ht : Packed w h ps s t) (hw : 0 < w.toNat) {p : Pixel} (hp : pixelOk p = true) :
    Packed w h (ps ++ [p]) s (packPixel p.r p.g p.b t) := by
  obtain ⟨hx, hy⟩ := ht.cursor_packPixel hw p.r p.g p.b
  obtain ⟨bs, htrace, hbits⟩ := ht.emitted
  obtain ⟨bs', htrace', hbits'⟩ := packPixel_emits p.r p.g p.b t
  have hlen : (ps ++ [p]).length = ps.length + 1 := List.length_append
  refine
    { st := (packPixel_st ..).trans ht.st
      errcode := (packPixel_errcode ..).trans ht.errcode
      width := (packPixel_width ..).trans ht.width
      height := (packPixel_height ..).trans ht.height
      x := hlen ▸ hx
      y := hlen ▸ hy
      bitpos := ?_
      serializer := ht.serializer.packPixel p.r p.g p.b
      earlier := (packPixel_earlier ..).trans ht.earlier
      input := (packPixel_input ..).trans ht.input
      emitted := ⟨bs ++ bs', by simp [htrace, htrace'], ?_⟩ }
  · rw [packPixel_eq_numbers hp, hlen, ht.bitpos, Nat.mul_succ, BitVec.ofNat_add]
    rfl
  · rw [hlen, Nat.mul_succ, streamPrefix_snoc ps hp, ← hbits, List.flatMap_append, List.append_assoc, hbits',
      List.append_assoc]

theorem Packed.not_full (ht : Packed w h ps s t) (hmore : ps.length < w.toNat * h.toNat) : full t = false := by
  have hrow : ps.length / w.toNat < h.toNat := Nat.div_lt_of_lt_mul hmore
  refine (full_eq_false_iff t).2 ⟨fun hw => ?_, fun hy => ?_⟩
  · rw [← ht.width, hw] at hmore
    simp at hmore
  · rw [ht.y, ht.height] at hy
    rw [← hy, BitVec.toNat_ofNat] at hrow
    exact absurd hrow (Nat.mod_le _ _).not_gt

/-- The row of the cursor when every pixel has been packed (R25, R32). -/
theorem Packed.y_of_all (ht : Packed w h ps s t) (hall : ps.length = w.toNat * h.toNat) :
    t.y = if w = 0#16 then 0 else h := by
  rw [ht.y, hall]
  split_ifs with hw
  · simp [hw]
  · have hpos : 0 < w.toNat := (BitVec.pos_iff_ne_zero w).2 hw
    rw [Nat.mul_div_cancel_left _ hpos, BitVec.ofNat_toNat, BitVec.setWidth_eq]

theorem Packed.full (ht : Packed w h ps s t) (hall : ps.length = w.toNat * h.toNat) : full t = true := by
  by_cases hw : w = 0#16
  · exact (full_iff t).2 (.inl (ht.width.trans hw))
  · exact (full_iff t).2 (.inr (by rw [ht.y_of_all hall, if_neg hw, ht.height]))

theorem Packed.outcnt (ht : Packed w h ps s t) : t.outcnt = BitVec.ofNat 34 (30 * ps.length / 8) := by
  apply BitVec.eq_of_toNat_eq
  rw [ht.serializer.counted, ht.bitpos, BitVec.toNat_ofNat, BitVec.toNat_ofNat]
  exact Nat.mod_mul_right_div_self (30 * ps.length) 8 (2 ^ 34)

theorem Packed.npend (ht : Packed w h ps s t) : t.npend = BitVec.ofNat 3 (30 * ps.length % 8) := by
  apply BitVec.eq_of_toNat_eq
  rw [ht.serializer.pending, ht.bitpos, BitVec.toNat_ofNat, BitVec.toNat_ofNat]
  omega

/-- START and then the first pixels of a frame, all legal, pack these pixels (R93, R101). -/
theorem runs_goodPixels (hst : s.st = .idle) (hfit : ps.length ≤ w.toNat * h.toNat)
    (hok : ∀ p ∈ ps, pixelOk p = true) :
    ∃ t, Runs (.start w h :: ps.map fun p => .pixel p.r p.g p.b) s t ∧ Packed w h ps s t := by
  induction ps using List.reverseRecOn with
  | nil => exact ⟨_, .cons (execStart_of_idle w h hst) (.nil _), .openFrame w h s⟩
  | append_singleton ps p ih =>
    rw [List.length_append, List.length_singleton] at hfit
    obtain ⟨t, hruns, ht⟩ := ih (by omega) fun q hq => hok q (List.mem_append_left _ hq)
    have hp : pixelOk p = true := hok p (by simp)
    have hw : 0 < w.toNat := Nat.pos_of_mul_pos_right (Nat.lt_of_lt_of_le (Nat.succ_pos _) hfit)
    have hpixel : exec (.pixel p.r p.g p.b) t = .next (Machine.packPixel p.r p.g p.b t) :=
      execPixel_of_legal ht.st (ht.not_full hfit) hp
    refine ⟨_, ?_, ht.packPixel hw hp⟩
    rw [List.map_append, ← List.cons_append]
    exact hruns.append (.cons hpixel (.nil _))

end

/-! A completed frame and a frame with an illegal pixel -/

/-- What the commands of a legal frame leave (R32, R109). -/
def afterFrame (f : Frame) (s : State) : State :=
  { s with
    width := f.width
    height := f.height
    x := 0
    y := if f.width = 0#16 then 0 else f.height
    bitpos := BitVec.ofNat 37 (30 * (f.width.toNat * f.height.toNat))
    outcnt := BitVec.ofNat 34 (outputLength (f.width.toNat * f.height.toNat))
    acc := 0
    npend := 0
    trace := s.trace ++ (packBytes f.pixels).map .byte ++ [.done] }

/-- What the commands of a frame leave whose first illegal pixel comes after the pixels `good` (R109, R121, R123). -/
def afterIllegalPixel (w h : Operand) (good : List Pixel) (s : State) : State :=
  { s with
    st := .err
    errcode := .invalidChannelValue
    width := w
    height := h
    x := BitVec.ofNat 16 (good.length % w.toNat)
    y := BitVec.ofNat 16 (good.length / w.toNat)
    bitpos := BitVec.ofNat 37 (30 * good.length)
    outcnt := BitVec.ofNat 34 (30 * good.length / 8)
    acc := streamByte good (30 * good.length / 8)
    npend := BitVec.ofNat 3 (30 * good.length % 8)
    trace := s.trace ++ ((packBytes good).take (30 * good.length / 8)).map .byte }

theorem Packed.finishFrame_eq {f : Frame} {s t : State} (ht : Packed f.width f.height f.pixels s t)
    (hst : s.st = .idle) (hall : f.pixels.length = f.width.toNat * f.height.toNat) :
    finishFrame t = afterFrame f s := by
  obtain ⟨bs, htrace, hbits⟩ := ht.emitted
  have hbytes : bs ++ flushedBytes t = packBytes f.pixels := emitted_append_flushed ht.serializer.aligned hbits
  have hout : bs.length = 30 * f.pixels.length / 8 := by
    have hlen : bs.length * 8 + t.npend.toNat = 30 * f.pixels.length := by simpa using congrArg List.length hbits
    have := t.npend.isLt
    omega
  have hcount : (finishFrame t).outcnt = BitVec.ofNat 34 (outputLength f.pixels.length) := by
    rw [finishFrame_counts, ht.outcnt, ← packBytes_length, ← hbytes, List.length_append, hout, BitVec.ofNat_add]
  refine State.ext_fields ?_ ?_ ?_ ?_ ?_ ?_ ?_ ?_ ?_ ?_ ?_ ?_ ?_
  · exact (finishFrame_st t).trans hst.symm
  · exact (finishFrame_errcode t).trans ht.errcode
  · exact (finishFrame_width t).trans ht.width
  · exact (finishFrame_height t).trans ht.height
  · rw [finishFrame_x, ht.x, hall, Nat.mul_mod_right]
    rfl
  · exact (finishFrame_y t).trans (ht.y_of_all hall)
  · rw [finishFrame_bitpos, ht.bitpos, hall]
    rfl
  · rw [hcount, hall]
    rfl
  · exact finishFrame_acc t
  · exact finishFrame_npend t
  · rw [finishFrame_trace, htrace, afterFrame, ← hbytes, List.map_append, List.append_assoc s.trace]
  · exact (finishFrame_earlier t).trans ht.earlier
  · exact (finishFrame_input t).trans ht.input

theorem Packed.raiseFault_eq {w h : Operand} {good : List Pixel} {s t : State} (ht : Packed w h good s t) :
    raiseFault .invalidChannelValue t = afterIllegalPixel w h good s := by
  obtain ⟨bs, htrace, hbits⟩ := ht.emitted
  obtain ⟨hbytes, hacc⟩ := emitted_eq_take ht.serializer.aligned hbits
  exact State.ext_fields rfl rfl ht.width ht.height ht.x ht.y ht.bitpos ht.outcnt hacc ht.npend
    (by rw [raiseFault_trace, htrace, hbytes]; rfl) ht.earlier ht.input

/-- R109 (a): START packs nothing, each PIXEL one pixel, and END closes the full frame. -/
theorem runs_legalFrame {s : State} {f : Frame} (hst : s.st = .idle) (hf : f.legal) :
    Runs (expandPack f.width f.height f.pixels) s (afterFrame f s) := by
  obtain ⟨hall, hok⟩ := hf
  obtain ⟨t, hruns, ht⟩ := runs_goodPixels hst hall.le hok
  rw [← ht.finishFrame_eq hst hall]
  exact hruns.append (.cons (execEnd_of_full ht.st (ht.full hall)) (.nil _))

/-- R109 (b): the illegal pixel faults, and every later command is discarded. -/
theorem runs_illegalFrame {s : State} {w h : Operand} {good more : List Pixel} {bad : Pixel} (hst : s.st = .idle)
    (hlen : (good ++ bad :: more).length = w.toNat * h.toNat) (hok : ∀ p ∈ good, pixelOk p = true)
    (hbad : pixelOk bad = false) : Runs (expandPack w h (good ++ bad :: more)) s (afterIllegalPixel w h good s) := by
  have hmore : good.length < w.toNat * h.toNat := by
    rw [← hlen, List.length_append, List.length_cons]
    omega
  obtain ⟨t, hruns, ht⟩ := runs_goodPixels hst hmore.le hok
  have hfault : exec (.pixel bad.r bad.g bad.b) t = .next (afterIllegalPixel w h good s) :=
    ht.raiseFault_eq ▸ execPixel_of_illegal ht.st (ht.not_full hmore) hbad
  rw [expandPack, List.map_append, List.append_assoc, ← List.cons_append]
  exact hruns.append (.cons hfault (.of_err rfl _))

theorem pack_of_legal {ps : List Pixel} (hok : ∀ p ∈ ps, pixelOk p = true) : pack ps = .bytes (packBytes ps) := by
  rw [pack, if_pos (List.all_eq_true.2 hok)]

/-- PACK refuses a frame exactly when it has a first illegal pixel (R108). -/
theorem pack_eq_invalid_iff (ps : List Pixel) :
    pack ps = .invalidChannelValue ↔ ∃ good bad more, ps = good ++ bad :: more ∧
      (∀ p ∈ good, pixelOk p = true) ∧ pixelOk bad = false := by
  rw [pack]
  split_ifs with hall
  · simp only [false_iff]
    rintro ⟨good, bad, more, rfl, -, hbad⟩
    simp [hbad] at hall
  · obtain ⟨bad, hfirst⟩ := Option.isSome_iff_exists.1
      (List.find?_isSome (p := fun p => !pixelOk p) (xs := ps) |>.2 (by simpa using hall))
    obtain ⟨hbad, good, more, hps, hok⟩ := List.find?_eq_some_iff_append.1 hfirst
    exact ⟨fun _ => ⟨good, bad, more, hps, by simpa using hok, by simpa using hbad⟩, fun _ => rfl⟩

theorem Runs.run_expandPack {w h : Operand} {ps : List Pixel} {s s' : State} (hruns : Runs (expandPack w h ps) s s')
    (rest : List HostMove) :
    run (ps.length + 2) (withInput (presentAll (expandPack w h ps) ++ rest) s) = .next (withInput rest s') := by
  rw [Nat.add_comm, ← expandPack_length w h ps]
  exact hruns rest

/-- Settles O25 (R109): both runs are those of `afterFrame` and `afterIllegalPixel`, as PACK says of the same pixels. -/
theorem frameCommandsImplementPack : Obligations.FrameCommandsImplementPack := by
  refine ⟨fun s f rest hst hf => ⟨pack_of_legal hf.2, (runs_legalFrame hst hf).run_expandPack rest⟩,
    fun s w h good more bad rest hst hlen hok hbad =>
      ⟨(pack_eq_invalid_iff _).2 ⟨good, bad, more, rfl, hok, hbad⟩, ?_⟩⟩
  rw [← hlen]
  exact (runs_illegalFrame hst hlen hok hbad).run_expandPack rest

end Sys2Proof.Machine

namespace Sys2Proof.Machine

/-! # The laws of a frame (42_frame_packer.md sections 3 and 6) -/

@[simp] theorem afterFrame_trace (f : Frame) (s : State) :
    (afterFrame f s).trace = s.trace ++ (packBytes f.pixels).map .byte ++ [.done] := rfl

@[simp] theorem afterIllegalPixel_trace (w h : Operand) (good : List Pixel) (s : State) :
    (afterIllegalPixel w h good s).trace =
      s.trace ++ ((packBytes good).take (30 * good.length / 8)).map .byte := rfl

/-- OUTCNT is wide enough for the bytes of a whole frame (R20, R22). -/
theorem afterFrame_outcnt_toNat {f : Frame} (hf : f.legal) (s : State) :
    (afterFrame f s).outcnt.toNat = (packBytes f.pixels).length := by
  have harea := width_mul_height_le f.width f.height
  rw [afterFrame, BitVec.toNat_ofNat, packBytes_length, hf.1, outputLength_eq]
  omega

theorem sampleOf_eq_ofNat {a : Operand} (h : chanOk a = true) : sampleOf a = BitVec.ofNat 10 (4 * a.toNat) := by
  rw [← sampleOf_toNat h, BitVec.ofNat_toNat, BitVec.setWidth_eq]

/-- The bits of the output are the stream's, and zeros after its last byte (R41, R42). -/
theorem packBytes_bits_getD (ps : List Pixel) (k : Nat) :
    ((packBytes ps).flatMap byteBits).getD k false = streamBit ps k := by
  rw [packBytes_bits, outputLength_eq, streamPrefix, List.getD_eq_getElem?_getD, List.getElem?_map]
  by_cases hk : k < 8 * ((30 * ps.length + 7) / 8)
  · rw [List.getElem?_range hk]
    rfl
  · rw [List.getElem?_eq_none (by simpa using hk), streamBit_past ps (by omega)]
    rfl

/-- The thirty bits of a pixel of the list stand in the output where its number says (R40, R67). -/
theorem packBytes_bits_pixel {ps : List Pixel} {n : Nat} {p : Pixel} (hp : ps[n]? = some p) :
    (((packBytes ps).flatMap byteBits).drop (30 * n)).take 30 = pixelBits p := by
  obtain ⟨hn, -⟩ := List.getElem?_eq_some_iff.1 hp
  have hpixel : ps.getD n noPixel = p := by rw [List.getD_eq_getElem?_getD, hp, Option.getD_some]
  obtain ⟨k, hk⟩ := Nat.exists_eq_add_of_le (show 30 * n + 30 ≤ 8 * outputLength ps.length by
    rw [outputLength_eq]; omega)
  have hbefore : (streamPrefix ps (30 * n)).length = 30 * n := streamPrefix_length ..
  rw [packBytes_bits, hk, streamPrefix_add, streamPrefix_add, List.append_assoc, List.drop_left' hbefore,
    List.take_left' (by simp), streamBits_pixel, hpixel]

/-- Settles O26 (R110): the bytes are those of PACK, and its laws are the stream's. -/
theorem completedFrameLaws : Obligations.CompletedFrameLaws := by
  intro f hf
  have hlen : (packBytes f.pixels).length = (f.width.toNat * f.height.toNat * 30 + 7) / 8 := by
    rw [packBytes_length, hf.1, outputLength_eq, Nat.mul_comm 30]
  refine ⟨packBytes f.pixels, fun s rest hst => ?_, hlen, fun hzero => ?_, fun n p hp => ?_, fun k hk => ?_⟩
  · exact ⟨_, (runs_legalFrame hst hf).run_expandPack rest, afterFrame_trace f s, afterFrame_outcnt_toNat hf s⟩
  · exact List.length_eq_zero_iff.1 (by rw [hlen, hzero])
  · obtain ⟨hr, hg, hb⟩ := (pixelOk_iff p).1 (hf.2 p (List.mem_of_getElem? hp))
    have hr' := (chanOk_iff _).1 hr
    have hg' := (chanOk_iff _).1 hg
    have hb' := (chanOk_iff _).1 hb
    refine ⟨?_, by omega, by omega, by omega⟩
    rw [packBytes_bits_pixel hp, ← sampleOf_eq_ofNat hr, ← sampleOf_eq_ofNat hg, ← sampleOf_eq_ofNat hb]
    simp [pixelBits]
  · rw [packBytes_bits_getD, streamBit_past _ (by rw [hf.1]; omega)]

/-- Settles O27 (R103): the bytes of PACK do not depend on the dimensions. -/
theorem rowChangeLeavesNoTrace : Obligations.RowChangeLeavesNoTrace := by
  intro s f g rest hst hf hpixels hwidth hheight
  have hg : g.legal := by
    refine ⟨?_, hpixels ▸ hf.2⟩
    rw [hpixels, hf.1, hwidth, hheight]
    exact (Nat.mul_one _).symm
  refine ⟨_, _, (runs_legalFrame hst hf).run_expandPack rest, (runs_legalFrame hst hg).run_expandPack rest, ?_⟩
  rw [withInput_trace, withInput_trace, afterFrame_trace, afterFrame_trace, hpixels]

/-! # A frame's commands and the sink (R138, R144) -/

/-- A run of steps keeps the invariant. -/
theorem Inv.run {n : Nat} {s s' : State} (h : Inv s) (e : Machine.run n s = .next s') : Inv s' := by
  induction n generalizing s with
  | zero =>
    rw [run_zero, Host.Outcome.next.injEq] at e
    exact e ▸ h
  | succ n ih =>
    obtain ⟨t, hstep, -⟩ := everyMoveIsTaken s
    rw [run_succ_of_next hstep] at e
    exact ih (stepKeepsInvariant s t h hstep) e

theorem acceptedFrom_frame (f : Frame) (rest : List OutItem) :
    acceptedFrom [] (f.items ++ rest) = packBytes f.pixels :: acceptedFrom [] rest := by
  rw [Frame.items, List.append_assoc, acceptedFrom_bytes]
  rfl

/-- After completed frames the sink has no frame in progress (R138). -/
theorem CompletedOutput.acceptedFrom_append {t : List OutItem} (h : CompletedOutput t) (rest : List OutItem) :
    acceptedFrom [] (t ++ rest) = acceptedFrom [] t ++ acceptedFrom [] rest := by
  obtain ⟨fs, -, rfl⟩ := h
  induction fs with
  | nil => rfl
  | cons f fs ih => rw [List.flatMap_cons, List.append_assoc, acceptedFrom_frame, ih, acceptedFrom_frame]; rfl

/-- The sink accepts nothing of a frame without its DONE (R138). -/
theorem acceptedFrom_unfinished (bs : List Byte) : acceptedFrom [] (bs.map .byte) = [] := by
  rw [← List.append_nil (bs.map OutItem.byte), acceptedFrom_bytes]
  rfl

/-- What the sink accepts of output that follows completed frames of the same run. -/
theorem acceptedFrames_of_append {s s' : State} {out : List OutItem} (hs : CompletedOutput s.trace)
    (hearlier : s'.earlier = s.earlier) (htrace : s'.trace = s.trace ++ out) :
    acceptedFrames s' = acceptedFrames s ++ acceptedFrom [] out := by
  simp only [acceptedFrames, hearlier, htrace, List.flatMap_append, List.flatMap_singleton,
    hs.acceptedFrom_append, List.append_assoc]

theorem acceptedFrames_afterFrame {s : State} (hs : CompletedOutput s.trace) (f : Frame) (rest : List HostMove) :
    acceptedFrames (withInput rest (afterFrame f s)) = acceptedFrames s ++ [packBytes f.pixels] := by
  have hframe : acceptedFrom [] f.items = [packBytes f.pixels] := by
    rw [← List.append_nil f.items, acceptedFrom_frame]
    rfl
  exact hframe ▸ acceptedFrames_of_append hs rfl (List.append_assoc ..)

theorem acceptedFrames_afterIllegalPixel {s : State} (hs : CompletedOutput s.trace) (w h : Operand)
    (good : List Pixel) (rest : List HostMove) :
    acceptedFrames (withInput rest (afterIllegalPixel w h good s)) = acceptedFrames s := by
  have hsink := acceptedFrames_of_append (s' := withInput rest (afterIllegalPixel w h good s)) hs rfl
    (afterIllegalPixel_trace w h good s)
  rwa [acceptedFrom_unfinished, List.append_nil] at hsink

/-- Settles O45 (R109, R138, R144): both outcomes of a frame's commands, as the sink sees them. -/
theorem legalFrameReachesSink : Obligations.LegalFrameReachesSink := by
  refine ⟨fun s f rest hinv hst hf => ?_, fun s f rest hinv hst hlen hpack => ?_⟩
  · obtain ⟨hcode, hbetween⟩ := hinv.idle hst
    have hrun := (runs_legalFrame hst hf).run_expandPack rest
    exact ⟨_, hrun, (hinv.withInput _).run hrun, (endState_good_iff _).2 ⟨hst, hcode⟩,
      acceptedFrames_afterFrame hbetween.completedOutput f rest⟩
  · obtain ⟨good, bad, more, hps, hok, hbad⟩ := (pack_eq_invalid_iff _).1 hpack
    have hruns : Runs (expandPack f.width f.height f.pixels) s (afterIllegalPixel f.width f.height good s) := by
      rw [hps] at hlen ⊢
      exact runs_illegalFrame hst hlen hok hbad
    have hrun := hruns.run_expandPack rest
    exact ⟨_, hrun, (hinv.withInput _).run hrun, rfl, rfl,
      acceptedFrames_afterIllegalPixel (hinv.idle hst).2.completedOutput _ _ good rest⟩

end Sys2Proof.Machine

namespace Sys2Proof.Machine

/-! # Faults and waiting (60_exceptions.md) -/

/-! Discarding in ERR (R123) -/

theorem takeWord_in_err (w : Word) {s : State} (hst : s.st = .err) : takeWord w s = .next s := by
  simp [takeWord, hst]

/-- Settles O34 (R123): by induction on the words, each of which is taken and discarded. -/
theorem errDiscardsEveryWord : Obligations.ErrDiscardsEveryWord := by
  intro s ws rest hst
  induction ws with
  | nil => rfl
  | cons w ws ih =>
    have hstep : step (withInput ((w :: ws).map .word ++ rest) s) = .next (withInput (ws.map .word ++ rest) s) :=
      takeWord_in_err w (s := withInput (ws.map HostMove.word ++ rest) s) hst
    rw [List.length_cons, run_succ_of_next hstep, ih]

/-! A fault writes ST and ERRCODE only (R121, R122) -/

/-- Of the effects of a word taken outside ERR, only fault entry leaves ST = ERR. -/
theorem WordEffect.eq_raiseFault {w : Word} {s s' : State} (e : WordEffect w s s') (hst : s.st ≠ .err)
    (herr : s'.st = .err) : ∃ c : ErrCode, c ≠ .none ∧ s' = raiseFault c s := by
  cases e with
  | discarded herr => exact absurd herr hst
  | faulted c _ hc _ => exact ⟨c, hc, rfl⟩
  | opened a b => simp at herr
  | packed r g b => exact absurd (packPixel_st r g b s ▸ herr) hst
  | finished => simp at herr

/-- A run of words that ends in ERR splits at the one word that faulted: the run up to it stays outside ERR, and every
word after it is discarded. -/
theorem exists_faulting_word {s s' : State} {ws : List Word} (hst : s.st ≠ .err)
    (hrun : run ws.length (withInput (ws.map .word) s) = .next s') (herr : s'.st = .err) :
    ∃ (k : Nat) (t : State) (c : ErrCode), k < ws.length ∧ c ≠ .none ∧ t.st ≠ .err ∧
      run k (withInput (ws.map .word) s) = .next t ∧ s' = withInput [] (raiseFault c t) := by
  induction ws generalizing s with
  | nil =>
    obtain rfl : withInput [] s = s' := by simpa using hrun
    exact absurd herr hst
  | cons w ws ih =>
    obtain ⟨u, hword⟩ := takeWord_answers w (withInput (ws.map .word) s)
    have hstep : step (withInput ((w :: ws).map .word) s) = .next u := hword
    have effect := wordEffect_of_takeWord hword
    have hu : withInput (ws.map .word) u = u := by
      rw [← withInput_input (ws.map .word) s, ← effect.input_eq, withInput_self]
    rw [List.length_cons, run_succ_of_next hstep] at hrun
    by_cases huerr : u.st = .err
    · obtain ⟨c, hc, hfault⟩ := effect.eq_raiseFault hst huerr
      have hdiscard := errDiscardsEveryWord u ws [] huerr
      rw [List.append_nil, hu, hrun, Host.Outcome.next.injEq] at hdiscard
      exact ⟨0, withInput ((w :: ws).map .word) s, c, Nat.succ_pos _, hc, hst, rfl, by rw [hdiscard, hfault]; rfl⟩
    · obtain ⟨k, t, c, hk, hc, ht, hbefore, hs'⟩ := ih huerr (by rw [hu, hrun])
      rw [hu] at hbefore
      exact ⟨k + 1, t, c, Nat.succ_lt_succ hk, hc, ht, by rw [run_succ_of_next hstep, hbefore], hs'⟩

/-- Settles O33 (R121, R122): what fault entry writes, for one word and for the one faulting word of a run. -/
theorem faultsArePrecise : Obligations.FaultsArePrecise :=
  ⟨fun _ _ => ⟨rfl, rfl, rfl⟩, fun _ _ _ hst e herr => (wordEffect_of_takeWord e).eq_raiseFault hst herr,
    fun _ _ _ hst hrun herr => exists_faulting_word hst hrun herr⟩

/-! The order of the faults (R120) -/

theorem BlockState.eq_pack {st : BlockState} (herr : st ≠ .err) (hidle : st ≠ .idle) : st = .pack := by
  cases st <;> simp_all

theorem step_presentWord_of_decode {w : Word} {i : Instr} (hw : decode w = .ok i) (s : State) :
    step (presentWord w s) = exec i s := takeWord_of_decode hw s

/-- Settles O32 (R120): each fault by the meaning of the word's command, and without one the command succeeds. -/
theorem faultPriority : Obligations.FaultPriority := by
  intro s w badSequence overrun underrun badChannel
  refine ⟨takeWord_in_err w, fun hst hw => takeWord_of_illegal hw hst, fun hseq => ?_, fun hst hover => ?_,
    fun hst hunder => ?_, fun hst hover hchan => ?_, fun hst hw hseq hover hunder hchan => ?_⟩
  · rcases hseq with ⟨hst, a, b, hw⟩ | ⟨hst, ⟨r, g, b, hw⟩ | hw⟩
    · exact (step_presentWord_of_decode hw s).trans (execStart_of_pack a b hst)
    · exact (step_presentWord_of_decode hw s).trans (execPixel_of_idle r g b hst)
    · exact (step_presentWord_of_decode hw s).trans (execEnd_of_idle hst)
  · obtain ⟨⟨r, g, b, hw⟩, hfull⟩ := hover
    exact (step_presentWord_of_decode hw s).trans (execPixel_of_full r g b hst hfull)
  · obtain ⟨hw, hfull⟩ := hunder
    exact (step_presentWord_of_decode hw s).trans (execEnd_of_not_full hst hfull)
  · obtain ⟨r, g, b, hw, hc⟩ := hchan
    have hfull : full s = false := Bool.eq_false_iff.2 fun hfull => hover ⟨⟨r, g, b, hw⟩, hfull⟩
    exact (step_presentWord_of_decode hw s).trans
      (execPixel_of_illegal hst hfull ((chansOk_eq_false_iff r g b).2 hc))
  · cases hd : decode w with
    | error r => exact absurd ((decode_toOption_eq_none_iff w).2 ⟨r, hd⟩) hw
    | ok i =>
      rw [step_presentWord_of_decode hd]
      cases i with
      | start a b =>
        have hidle : s.st = .idle := by
          by_contra hidle
          exact hseq (.inl ⟨BlockState.eq_pack hst hidle, a, b, hd⟩)
        exact ⟨_, execStart_of_idle a b hidle, by simp, rfl⟩
      | pixel r g b =>
        have hpack : s.st = .pack := BlockState.eq_pack hst fun hidle => hseq (.inr ⟨hidle, .inl ⟨r, g, b, hd⟩⟩)
        have hfull : full s = false := Bool.eq_false_iff.2 fun hfull => hover ⟨⟨r, g, b, hd⟩, hfull⟩
        have hc : chansOk r g b = true := Bool.of_not_eq_false fun hc =>
          hchan ⟨r, g, b, hd, (chansOk_eq_false_iff r g b).1 hc⟩
        exact ⟨_, execPixel_of_legal hpack hfull hc, by simpa using hst, packPixel_errcode r g b s⟩
      | endFrame =>
        have hpack : s.st = .pack := BlockState.eq_pack hst fun hidle => hseq (.inr ⟨hidle, .inr hd⟩)
        have hfull : full s = true := Bool.of_not_eq_false fun hfull => hunder ⟨hd, hfull⟩
        exact ⟨_, execEnd_of_full hpack hfull, by simp, finishFrame_errcode s⟩

/-! Waiting for the host (R132, R144) -/

theorem step_of_no_move {s : State} (hin : s.input = []) : step s = .next s := by
  simp [step, takeMove, hin]

/-- Settles O47 (R132, R144): by induction on the number of steps. -/
theorem blockWaitsForHost : Obligations.BlockWaitsForHost := by
  intro s hin n
  induction n with
  | zero => rfl
  | succ n ih => rw [run_succ_of_next (step_of_no_move hin), ih]

end Sys2Proof.Machine

namespace Sys2Proof.Machine

/-! # Reset (70_reset_and_hazards.md section 1) -/

/-- In ERR a step that is no reset only takes the host's next move (R123, R124). -/
theorem step_in_err {s s' : State} (hst : s.st = .err) (hin : s.input.head? ≠ some .reset) (e : step s = .next s') :
    s' = withInput s'.input s := by
  rcases step_cases e with ⟨-, rfl⟩ | ⟨w, rest, -, hword⟩ | ⟨rest, hreset, -⟩
  · rfl
  · obtain rfl := takeWord_of_err (s := withInput rest s) hst hword
    rfl
  · exact absurd (by simp [hreset]) hin

/-- From ST = IDLE every word but START leaves ST = ERR (R92). -/
theorem WordEffect.start_of_idle {w : Word} {s s' : State} (e : WordEffect w s s') (hst : s.st = .idle)
    (hne : s'.st ≠ .err) : ∃ a b, decode w = .ok (.start a b) := by
  cases e with
  | discarded herr => exact absurd herr hne
  | faulted c => exact absurd (raiseFault_st c s) hne
  | opened a b _ hw => exact ⟨a, b, hw⟩
  | packed r g b hpack => simp [hst] at hpack
  | finished hpack => simp [hst] at hpack

/-- Settles O36 (R124, R133, R134): reset's writes, what ERR keeps, and the words taken in IDLE. -/
theorem resetIsTheOnlyWayOut : Obligations.ResetIsTheOnlyWayOut := by
  refine ⟨fun s rest => ?_, fun s s' hst e hne => ?_, fun s s' hst hin e => ?_, fun s s' w e hne => ?_⟩
  · exact ⟨_, step_withInput_reset rest s, rfl, rfl, rfl, history_assertReset (withInput rest s), rfl⟩
  · by_contra hin
    exact hne (st_err_of_step hst hin e)
  · have hkept := step_in_err hst hin e
    exact ⟨hkept, by rw [hkept, statusPort_withInput], by rw [hkept]; rfl⟩
  · rw [step_presentWord] at e
    exact (wordEffect_of_takeWord e).start_of_idle (assertReset_st s) hne

/-! # The output of closed runs (70_reset_and_hazards.md section 3) -/

/-! The trace of the present run is one that a reset may close -/

theorem OpenFrame.closedRun {s : State} (h : OpenFrame s) : ClosedRun s.trace := by
  obtain ⟨t, bs, -, ht, htrace, -⟩ := h.i10
  exact ⟨t, bs, ht, htrace⟩

theorem BetweenFrames.closedRun {s : State} (h : BetweenFrames s) : ClosedRun s.trace :=
  ⟨s.trace, [], h.completedOutput, (List.append_nil _).symm⟩

theorem Inv.closedRun {s : State} (h : Inv s) : ClosedRun s.trace := by
  cases hst : s.st with
  | idle => exact (h.idle hst).2.closedRun
  | pack => exact (h.packed hst).2.closedRun
  | err => exact (h.failed hst).2.elim OpenFrame.closedRun BetweenFrames.closedRun

/-- Settles O43 (R134, R138): only a reset adds a run, and that is the run whose trace the invariant describes. -/
theorem earlierRunsStayClosed : Obligations.EarlierRunsStayClosed := by
  intro s s' hinv hclosed e
  rcases step_cases e with ⟨-, rfl⟩ | ⟨w, rest, -, hword⟩ | ⟨rest, -, rfl⟩
  · exact hclosed
  · obtain ⟨hearlier, -⟩ := output_of_wordEffect (wordEffect_of_takeWord hword)
    intro t ht
    exact hclosed t (hearlier ▸ ht)
  · intro t ht
    rcases List.mem_append.1 ht with ht | ht
    · exact hclosed t ht
    · exact List.mem_singleton.1 ht ▸ hinv.closedRun

/-! What the sink accepts of a run (R138) -/

/-- Bytes that no DONE follows add no frame, whatever came before them (R138). -/
theorem acceptedFrom_append_bytes (acc : List Byte) (t : List OutItem) (bs : List Byte) :
    acceptedFrom acc (t ++ bs.map .byte) = acceptedFrom acc t := by
  induction t generalizing acc with
  | nil =>
    rw [List.nil_append, ← List.append_nil (bs.map OutItem.byte), acceptedFrom_bytes]
    rfl
  | cons item t ih =>
    cases item with
    | byte b => exact ih (acc ++ [b])
    | done => exact congrArg (acc :: ·) (ih [])

/-- The sink accepts the frames of a completed output, each as PACK gives it (R109, R138). -/
theorem acceptedFrom_items (fs : List Frame) :
    acceptedFrom [] (fs.flatMap Frame.items) = fs.map fun f => packBytes f.pixels := by
  induction fs with
  | nil => rfl
  | cons f fs ih => rw [List.flatMap_cons, acceptedFrom_frame, ih, List.map_cons]

theorem ClosedRun.accepted {t : List OutItem} (h : ClosedRun t) {bs : List Byte} (hbs : bs ∈ acceptedFrom [] t) :
    ∃ f : Frame, f.legal ∧ bs = packBytes f.pixels := by
  obtain ⟨_, left, ⟨fs, hlegal, rfl⟩, rfl⟩ := h
  rw [acceptedFrom_append_bytes, acceptedFrom_items] at hbs
  obtain ⟨f, hf, rfl⟩ := List.mem_map.1 hbs
  exact ⟨f, hlegal f hf, rfl⟩

/-- Settles O44 (R138): every run, the present one included, is a closed run. -/
theorem sinkAcceptsOnlyPackedFrames : Obligations.SinkAcceptsOnlyPackedFrames := by
  intro s hinv hclosed bs hbs
  obtain ⟨t, ht, hbs⟩ := List.mem_flatMap.1 hbs
  rcases List.mem_append.1 ht with ht | ht
  · exact (hclosed t ht).accepted hbs
  · exact (List.mem_singleton.1 ht ▸ hinv.closedRun).accepted hbs

/-! # The end of a frame and of a run (70_reset_and_hazards.md section 5) -/

/-- What a step does while a frame is open: the three ways in which R144 tells steps apart. -/
inductive OpenStep (s : State) : State → Prop
  /-- The frame stays open or faults, and at most bytes go out (R28, R121). -/
  | continued {s' : State} (bs : List Byte) (hst : s'.st ≠ .idle) (htrace : s'.trace = s.trace ++ bs.map .byte)
      (hearlier : s'.earlier = s.earlier) (hreset : s.input.head? ≠ some .reset)
      (hend : ¬ (s.input.head? = some (.word (encode .endFrame)) ∧ full s = true)) : OpenStep s s'
  /-- END closes the full frame (R106). -/
  | finished (rest : List HostMove) (hin : s.input = .word (encode .endFrame) :: rest) (hfull : full s = true) :
      OpenStep s (finishFrame (withInput rest s))
  /-- Reset cuts the frame off (R134). -/
  | cut (rest : List HostMove) (hin : s.input = .reset :: rest) : OpenStep s (assertReset (withInput rest s))

/-- Every step from an open frame is one of these, by the cases of a step and of a word. -/
theorem openStep_of_step {s s' : State} (hst : s.st = .pack) (e : step s = .next s') : OpenStep s s' := by
  rcases step_cases e with ⟨hin, rfl⟩ | ⟨w, rest, hin, hword⟩ | ⟨rest, hin, rfl⟩
  · exact .continued [] (by simp [hst]) (by simp) rfl (by simp [hin]) (by simp [hin])
  · cases wordEffect_of_takeWord hword with
    | discarded herr => exact absurd (hst.symm.trans herr) (by decide)
    | faulted c _ _ hend =>
      refine .continued [] (by simp) (by simp) rfl (by simp [hin]) fun ⟨hw, hfull⟩ => ?_
      have hw : decode w = .ok .endFrame := (decode_eq_endFrame_iff w).2 (by simpa [hin] using hw)
      exact absurd hfull (by simpa using hend hw hst)
    | opened a b hidle => exact absurd (hst.symm.trans hidle) (by decide)
    | packed r g b _ hfull =>
      obtain ⟨bs, htrace, -⟩ := packPixel_emits r g b (withInput rest s)
      exact .continued bs (by simp [hst]) htrace (packPixel_earlier r g b _) (by simp [hin])
        fun hend => absurd hend.2 (by simpa using hfull)
    | finished _ hfull hw =>
      obtain rfl := (decode_eq_endFrame_iff w).1 hw
      exact .finished rest hin hfull
  · exact .cut rest hin

theorem frameEnd_eq_none_iff (s s' : State) :
    frameEnd s s' = none ↔ s'.st ≠ .err ∧ ¬ (s.st = .pack ∧ s.input.head? = some .reset) ∧
      ¬ (s'.st = .idle ∧ s'.trace.getLast? = some .done) := by
  simp only [frameEnd, resetCutsFrame_iff]
  split_ifs with hbad hwell
  · rcases hbad with hbad | hbad <;> simp [hbad]
  · simp [hwell]
  · simp [not_or.1 hbad, hwell]

/-- While a frame is open, only END of the full frame ends it well (R144). -/
theorem OpenStep.frameEnd_well_iff {s s' : State} (h : OpenStep s s') :
    frameEnd s s' = some .well ↔ s.input.head? = some (.word (encode .endFrame)) ∧ full s = true := by
  rw [Machine.frameEnd_well_iff]
  cases h with
  | continued bs hst _ _ _ hend => simp [hst, hend]
  | finished rest hin hfull => simp [hin, hfull]
  | cut rest hin => simp [hin]

/-- While a frame is open, it stays so exactly when it has not ended (R144). -/
theorem OpenStep.frameEnd_none_iff {s s' : State} (h : OpenStep s s') (hst : s.st = .pack) :
    frameEnd s s' = none ↔ s'.st = .pack := by
  rw [frameEnd_eq_none_iff]
  cases h with
  | continued bs hidle _ _ hreset _ =>
    simp only [hidle, hreset, and_false, false_and, not_false_eq_true, and_true]
    exact ⟨fun herr => BlockState.eq_pack herr hidle, fun hpack => by simp [hpack]⟩
  | finished rest hin => simp
  | cut rest hin => simp [hst, hin]

/-- The block takes a run's words one by one, and no word is a reset (R39, R134). -/
theorem run_words (s : State) (ws : List Word) (rest : List HostMove) :
    ∃ s', run ws.length (withInput (ws.map .word ++ rest) s) = .next s' ∧ s'.input = rest ∧
      s'.earlier = s.earlier := by
  induction ws generalizing s with
  | nil => exact ⟨_, rfl, rfl, rfl⟩
  | cons w ws ih =>
    obtain ⟨u, hword⟩ := takeWord_answers w (withInput (ws.map .word ++ rest) s)
    have effect := wordEffect_of_takeWord hword
    have hu : withInput (ws.map .word ++ rest) u = u := congrArg (withInput · u) effect.input_eq.symm
    obtain ⟨s', hrun, hinput, hearlier⟩ := ih u
    rw [hu] at hrun
    have hstep : step (withInput ((w :: ws).map .word ++ rest) s) = .next u := hword
    exact ⟨s', by rw [List.length_cons, run_succ_of_next hstep, hrun], hinput,
      hearlier.trans (output_of_wordEffect effect).1⟩

theorem runEnd_eq_none_iff (s : State) : runEnd s = none ↔ ∃ w, s.input.head? = some (.word w) := by
  refine ⟨fun hnone => ?_, fun ⟨w, hw⟩ => ?_⟩
  · by_contra! hword
    rw [runEnd_of_no_word hword] at hnone
    simp at hnone
  · obtain ⟨rest, hin⟩ := List.head?_eq_some_iff.1 hw
    simp [runEnd, hin]

/-- With the invariant a run in IDLE has no fault code, so that only ERR is a faulted end (R15, R32, R144). -/
theorem Inv.endState_faulted_iff {s : State} (h : Inv s) : endState s = .faulted ↔ s.st = .err := by
  unfold endState
  cases hst : s.st with
  | idle => simp [(h.idle hst).1]
  | pack => simp
  | err => simp

/-- Settles O49 (R144): the verdicts on a step from an open frame by its three kinds, those on a run by its words. -/
theorem endOfFrameAndRun : Obligations.EndOfFrameAndRun := by
  refine ⟨fun s s' hst e => ?_, fun s s' hwell => ?_, fun s s' herr => (frameEnd_badly_iff s s').2 (.inl herr),
    fun s ws rest hrest => ?_, runEnd_eq_none_iff, endState_good_iff, endState_unfinished_iff,
    fun s hinv => hinv.endState_faulted_iff⟩
  · have kind := openStep_of_step hst e
    exact ⟨kind.frameEnd_well_iff, by simp [frameEnd_badly_iff, hst], kind.frameEnd_none_iff hst⟩
  · obtain ⟨hidle, hdone, -⟩ := (frameEnd_well_iff s s').1 hwell
    exact ⟨hidle, hdone⟩
  · obtain ⟨s', hrun, hinput, hearlier⟩ := run_words s ws rest
    exact ⟨s', hrun, hinput, hearlier, runEnd_of_no_word (hinput ▸ hrest)⟩

/-! # What the sink gets when a frame ends (70_reset_and_hazards.md sections 3 and 5) -/

theorem acceptedFrames_of_append_bytes {s s' : State} {bs : List Byte} (hearlier : s'.earlier = s.earlier)
    (htrace : s'.trace = s.trace ++ bs.map .byte) : acceptedFrames s' = acceptedFrames s := by
  simp [acceptedFrames, hearlier, htrace, acceptedFrom_append_bytes]

/-- A reset takes no accepted frame back and adds none (R134, R138). -/
theorem acceptedFrames_assertReset (s : State) : acceptedFrames (assertReset s) = acceptedFrames s := by
  simp [acceptedFrames, acceptedFrom]

/-- END of a full frame gives the sink the frame: up to its DONE the sink holds what completed frames left (R138). -/
theorem OpenFrame.acceptedFrames_finishFrame {s : State} (h : OpenFrame s) (hfull : full s = true) :
    ∃ f : Frame, f.legal ∧ f.width = s.width ∧ f.height = s.height ∧
      acceptedFrames (Machine.finishFrame s) = acceptedFrames s ++ [packBytes f.pixels] := by
  obtain ⟨t, f, ht, hf, hwidth, hheight, htrace⟩ := h.trace_finishFrame hfull
  have hbefore : s.trace ++ (flushedBytes s).map .byte = t ++ (packBytes f.pixels).map .byte := by
    rw [finishFrame_trace, Frame.items, ← List.append_assoc] at htrace
    exact List.append_cancel_right htrace
  have hsink : acceptedFrom [] s.trace = acceptedFrom [] t := by
    rw [← acceptedFrom_append_bytes [] s.trace (flushedBytes s), hbefore, acceptedFrom_append_bytes]
  have hframe : acceptedFrom [] f.items = [packBytes f.pixels] := by simpa using acceptedFrom_items [f]
  refine ⟨f, hf, hwidth, hheight, ?_⟩
  simp only [acceptedFrames, finishFrame_earlier, htrace, List.flatMap_append, List.flatMap_singleton,
    ht.acceptedFrom_append, hframe, hsink, List.append_assoc]

/-- Settles O50 (R134, R138, R144): by the three kinds of step from an open frame. -/
theorem frameEndDecidesAcceptance : Obligations.FrameEndDecidesAcceptance := by
  intro s s' hinv hst e
  have kind := openStep_of_step hst e
  have hwell := kind.frameEnd_well_iff
  cases kind with
  | continued bs _ htrace hearlier _ hend =>
    exact ⟨fun h => absurd (hwell.1 h) hend, fun _ => acceptedFrames_of_append_bytes hearlier htrace⟩
  | finished rest hin hfull =>
    have hopen := ((hinv.withInput rest).packed hst).2
    exact ⟨fun _ => hopen.acceptedFrames_finishFrame hfull, fun h => absurd (hwell.2 ⟨by simp [hin], hfull⟩) h⟩
  | cut rest hin =>
    exact ⟨fun h => absurd (hwell.1 h).1 (by simp [hin]), fun _ => acceptedFrames_assertReset (withInput rest s)⟩

end Sys2Proof.Machine

namespace Sys2Proof

/-! # The written words (95_test_vectors.md section 2.4) -/

/-- Settles O4: each legal word is the encoding of its command (R61), and each illegal word is refused for the reason
that the table gives (R62). -/
theorem writtenWordsDecode : Obligations.WrittenWordsDecode := by
  have illegal {w : Word} (r : Reject) (h : decode w = .error r) : (decode w).toOption = none :=
    (decode_toOption_eq_none_iff w).2 ⟨r, h⟩
  refine ⟨?start, ?largestStart, ?pixel, ?wideChannel, ?endFrame, ?startWithC, ?zeroField, ?endWithOperand, ?opcode⟩
  case start => exact decode_encode (.start 1920 1080)
  case largestStart => exact decode_encode (.start 65535 65535)
  case pixel => exact decode_encode (.pixel 255 128 0)
  case wideChannel => exact decode_encode (.pixel 256 0 0)
  case endFrame => exact decode_encode .endFrame
  case startWithC => exact illegal .startOperandC rfl
  case zeroField => exact illegal .zeroFieldNotZero rfl
  case endWithOperand => exact illegal .endOperand rfl
  case opcode => exact illegal .reservedOpcode rfl

end Sys2Proof
